-- ==== Sys2Proof/Word.lean ====
section
/-! DEFINITION. The bit-vector types of the block: bytes, the 32-bit words of the register window, and the
64-bit byte addresses of the engine's port (spec/00_scope.md R9, spec/20_memory.md R50). -/

namespace Sys2Proof

/-- One byte of host memory (R50: byte addressed, one address per 8-bit byte). -/
abbrev Byte := BitVec 8

/-- One register of the window, and one command word (R20, R80). -/
abbrev Word := BitVec 32

/-- One byte address of the engine's port: `ADDR_W = 64` (R8, R50). -/
abbrev Addr := BitVec 64

end Sys2Proof
end

