-- ==== Sys2Proof/Config.lean ====
section
/-! DEFINITION. What this build of the block fixes (spec/00_scope.md R8): the closed tag sets, the
implementation set and its availability, the shape of the platform parameters, and the free values of the
cases the spec calls a draw. -/

namespace Sys2Proof

/-- `STATE_ORDER`: the byte order of each word in the state region (R8, R55). -/
inductive ByteOrder where
  | LE
  | BE
deriving DecidableEq, Repr

/-- The seven closed Variant tags (R82, R100). -/
inductive Variant where
  | sha1
  | sha224
  | sha256
  | sha384
  | sha512
  | sha512t224
  | sha512t256
deriving DecidableEq, Repr

/-- The three compression routines (R15, R160): F0 is SHA-1, F1 is SHA-256, F2 is SHA-512. -/
inductive Family where
  | F0
  | F1
  | F2
deriving DecidableEq, Repr

/-- The recorded fault codes of R260, in ascending order of code. -/
inductive FaultCode where
  | illegalCmd
  | reservedVariant
  | reservedImpl
  | engineUnbound
  | unavailableImpl
  | busError
  | overlap
deriving DecidableEq, Repr

/-- One range of byte addresses, both ends included. A list of them is the form in which the model takes the
platform predicate `MEM_ADMIT` (R8): every set of 64-bit addresses is such a list. Log entry 1. -/
structure Region where
  first : Addr
  last : Addr
deriving DecidableEq, Repr

/-- The code of Generic (R83, R140). -/
def implGeneric : BitVec 4 := 0

/-- `IMPL_SET = {0}` (R8, R83). -/
def implSet : List (BitVec 4) := [implGeneric]

/-- `AVAIL(i)`: `AVAIL(0) = true` and no other code is implemented (R8, R144). A code outside `IMPL_SET` is
never held in ENG on any run; the model answers false for it (log entry 9). -/
def avail (i : BitVec 4) : Bool := i == implGeneric

/-- The size of the port's address space, `2^ADDR_W` (R8, R50). -/
def addrSpace : Nat := 2 ^ 64

/-- The bytes of a draw. Nothing is known of them: the `n`-th draw of a run is `freeByte n`. They stand where
the spec says that a byte is any value: a data race (R63, U3), a store not yet visible at the port (R66, U11)
and a reset during a command (R292, U10). Log entry 6. -/
opaque freeByte : Nat → Byte

end Sys2Proof
end

