-- ==== Sys2Proof/Syntax.lean ====
section
/-! DEFINITION. The commands of the block, one constructor per row of spec/opcode_table.json
(spec/30_encoding.md R84, R85). -/

namespace Sys2Proof

/-- A command. VAR and IMPL stand as the raw fields of the row (R81): a row of R85 matches every value of the
fields it uses, VAR = 7 and an IMPL outside `IMPL_SET` among them, and the command then faults
RESERVED_VARIANT or RESERVED_IMPL (R86, R87). -/
inductive Instr where
  /-- QBLK, OP 0x01 (R102). -/
  | qblk (var : BitVec 3)
  /-- QSTL, OP 0x02 (R103). -/
  | qstl (var : BitVec 3)
  /-- QDGL, OP 0x03 (R104). -/
  | qdgl (var : BitVec 3)
  /-- QPDL, OP 0x04 (R105). -/
  | qpdl (var : BitVec 3)
  /-- LDIV, OP 0x05 (R120). -/
  | ldiv (var : BitVec 3)
  /-- FAST, OP 0x06 (R141). -/
  | fast
  /-- FASTRT, OP 0x07 (R142). -/
  | fastrt
  /-- AVAIL, OP 0x08 (R143). -/
  | avail (impl : BitVec 4)
  /-- ENGNEW, OP 0x09 (R162). -/
  | engnew (var : BitVec 3) (impl : BitVec 4)
  /-- ENGREF, OP 0x0A (R163). -/
  | engref (var : BitVec 3) (impl : BitVec 4)
  /-- COMPRESS, OP 0x0B (R164). -/
  | compress
deriving DecidableEq, Repr

end Sys2Proof
end

