-- ==== Sys2Proof/WellFormed.lean ====
section
/-! DEFINITION. A command is well formed when its fields name something: VAR is one of the seven variant codes
(spec/30_encoding.md R82) and IMPL is in `IMPL_SET` (R83). A well-formed command passes every check of R86 (log
entry 17). -/

namespace Sys2Proof

/-- VAR is one of the seven codes of R82; 7 is reserved. -/
def wfVar (var : BitVec 3) : Bool := var != 7

/-- IMPL is an implemented code (R83). -/
def wfImpl (impl : BitVec 4) : Bool := implSet.contains impl

/-- The command's fields all name something (R86: the last two checks pass). -/
def Instr.wf : Instr → Bool
  | .qblk var => wfVar var
  | .qstl var => wfVar var
  | .qdgl var => wfVar var
  | .qpdl var => wfVar var
  | .ldiv var => wfVar var
  | .fast => true
  | .fastrt => true
  | .avail impl => wfImpl impl
  | .engnew var impl => wfVar var && wfImpl impl
  | .engref var impl => wfVar var && wfImpl impl
  | .compress => true

end Sys2Proof
end

