-- ==== Sys2Proof/Decode.lean ====
section
/-! DEFINITION. Decoding a word written to CMD, in the order of spec/30_encoding.md R86; then the encoder, and
the match and mask table of R85 written out beside them. -/

namespace Sys2Proof

/-- The eleven operations of R84. -/
inductive Op where
  | QBLK
  | QSTL
  | QDGL
  | QPDL
  | LDIV
  | FAST
  | FASTRT
  | AVAIL
  | ENGNEW
  | ENGREF
  | COMPRESS
deriving DecidableEq, Repr

/-- Why a word matches no row of R85. All four are ILLEGAL_CMD (R86, R87). -/
inductive DecodeReject where
  /-- OP is 0x00 or one of 0x0C to 0xFF. -/
  | reservedOp
  /-- Bit 11 or one of bits 31:16 is set. -/
  | reservedBits
  /-- VAR is not 0 on a command that does not use it. -/
  | varUnused
  /-- IMPL is not 0 on a command that does not use it. -/
  | implUnused
deriving DecidableEq, Repr

/-- The field OP (R81). -/
def opField (c : Word) : BitVec 8 := c.extractLsb' 0 8

/-- The field VAR (R81). -/
def varField (c : Word) : BitVec 3 := c.extractLsb' 8 3

/-- Bit 11, reserved (R81). -/
def reserved11 (c : Word) : BitVec 1 := c.extractLsb' 11 1

/-- The field IMPL (R81). -/
def implField (c : Word) : BitVec 4 := c.extractLsb' 12 4

/-- Bits 31:16, reserved (R81). -/
def reservedHigh (c : Word) : BitVec 16 := c.extractLsb' 16 16

/-- The OP value of an operation (R84). -/
def opCode : Op → BitVec 8
  | .QBLK => 0x01
  | .QSTL => 0x02
  | .QDGL => 0x03
  | .QPDL => 0x04
  | .LDIV => 0x05
  | .FAST => 0x06
  | .FASTRT => 0x07
  | .AVAIL => 0x08
  | .ENGNEW => 0x09
  | .ENGREF => 0x0A
  | .COMPRESS => 0x0B

/-- The rows of the opcode map, in the order of R84. -/
def allOps : List Op :=
  [.QBLK, .QSTL, .QDGL, .QPDL, .LDIV, .FAST, .FASTRT, .AVAIL, .ENGNEW, .ENGREF, .COMPRESS]

/-- The operation an OP value names; none for the reserved values (R84). -/
def opOfCode? (x : BitVec 8) : Option Op := allOps.find? fun o => opCode o == x

/-- `UsesVar`: the column "uses VAR" of R84. -/
def usesVar : Op → Bool
  | .QBLK | .QSTL | .QDGL | .QPDL | .LDIV | .ENGNEW | .ENGREF => true
  | .FAST | .FASTRT | .AVAIL | .COMPRESS => false

/-- `UsesImpl`: the column "uses IMPL" of R84. -/
def usesImpl : Op → Bool
  | .AVAIL | .ENGNEW | .ENGREF => true
  | .QBLK | .QSTL | .QDGL | .QPDL | .LDIV | .FAST | .FASTRT | .COMPRESS => false

/-- The command of an operation and the fields read from the word. -/
def instrOf (o : Op) (var : BitVec 3) (impl : BitVec 4) : Instr :=
  match o with
  | .QBLK => .qblk var
  | .QSTL => .qstl var
  | .QDGL => .qdgl var
  | .QPDL => .qpdl var
  | .LDIV => .ldiv var
  | .FAST => .fast
  | .FASTRT => .fastrt
  | .AVAIL => .avail impl
  | .ENGNEW => .engnew var impl
  | .ENGREF => .engref var impl
  | .COMPRESS => .compress

/-- The first four checks of R86, in its order. A word that passes them is a word of exactly one row of R85.
The last two checks, RESERVED_VARIANT and RESERVED_IMPL, are made by the command (`withVariant`,
`withImpl` of Machine/Ops.lean). -/
def decode (c : Word) : Except DecodeReject Instr :=
  match opOfCode? (opField c) with
  | none => .error .reservedOp
  | some o =>
    if reservedHigh c ≠ 0 ∨ reserved11 c ≠ 0 then .error .reservedBits
    else if usesVar o = false ∧ varField c ≠ 0 then .error .varUnused
    else if usesImpl o = false ∧ implField c ≠ 0 then .error .implUnused
    else .ok (instrOf o (varField c) (implField c))

/-! ## The encoder -/

/-- The operation of a command. -/
def opOf : Instr → Op
  | .qblk _ => .QBLK
  | .qstl _ => .QSTL
  | .qdgl _ => .QDGL
  | .qpdl _ => .QPDL
  | .ldiv _ => .LDIV
  | .fast => .FAST
  | .fastrt => .FASTRT
  | .avail _ => .AVAIL
  | .engnew _ _ => .ENGNEW
  | .engref _ _ => .ENGREF
  | .compress => .COMPRESS

/-- The VAR field of a command; 0 where the command does not use it (R81, R87). -/
def varOf : Instr → BitVec 3
  | .qblk var | .qstl var | .qdgl var | .qpdl var | .ldiv var => var
  | .engnew var _ | .engref var _ => var
  | .fast | .fastrt | .avail _ | .compress => 0

/-- The IMPL field of a command; 0 where the command does not use it (R81, R87). -/
def implOf : Instr → BitVec 4
  | .avail impl | .engnew _ impl | .engref _ impl => impl
  | .qblk _ | .qstl _ | .qdgl _ | .qpdl _ | .ldiv _ | .fast | .fastrt | .compress => 0

/-- The one command format (R80, R81): bits 31:16 zero, IMPL, bit 11 zero, VAR, OP. -/
def encodeFields (o : Op) (var : BitVec 3) (impl : BitVec 4) : Word :=
  0#16 ++ impl ++ 0#1 ++ var ++ opCode o

/-- The word of a command (R81, R84). It is also the command word that fault entry records in FCMD: R85 leaves
one word for one command. -/
def encode (i : Instr) : Word := encodeFields (opOf i) (varOf i) (implOf i)

/-! ## The table of R85 -/

/-- The column "match" of R85. -/
def opMatch : Op → Word
  | .QBLK => 0x00000001
  | .QSTL => 0x00000002
  | .QDGL => 0x00000003
  | .QPDL => 0x00000004
  | .LDIV => 0x00000005
  | .FAST => 0x00000006
  | .FASTRT => 0x00000007
  | .AVAIL => 0x00000008
  | .ENGNEW => 0x00000009
  | .ENGREF => 0x0000000A
  | .COMPRESS => 0x0000000B

/-- The column "mask" of R85. -/
def opMask : Op → Word
  | .QBLK | .QSTL | .QDGL | .QPDL | .LDIV => 0xFFFFF8FF
  | .FAST | .FASTRT | .COMPRESS => 0xFFFFFFFF
  | .AVAIL => 0xFFFF0FFF
  | .ENGNEW | .ENGREF => 0xFFFF08FF

/-- R85: a word selects a command when `c & mask = match`. -/
def selects (o : Op) (c : Word) : Bool := c &&& opMask o == opMatch o

/-! ## The host's reading of the opcode table -/

/-- The command this decoder reads from a table word: one 32-bit word (R80), bit 0 the least significant, every
bit above `nbits` zero. -/
def decodeTableWord (nbits w : Nat) : Option Instr :=
  match decode (BitVec.ofNat 32 (w % 2 ^ nbits)) with
  | .ok i => some i
  | .error _ => none

end Sys2Proof
end

