-- ==== Sys2Proof/Machine/Operands.lean ====
section
/-! DEFINITION. The operands of commands: the variant codes and the parameter table, the bytes and words of the
regions, and the word operations of the routines (spec/00_scope.md R10 and R12, spec/20_memory.md R55 to R57,
spec/30_encoding.md R82, spec/40_variant_queries.md R101, spec/43_engine_dispatch.md R160 and R161). -/

namespace Sys2Proof.Machine

/-! ## Variants and families -/

/-- The variant a VAR code names; none for the reserved code 7 (R82). -/
def variantOfCode? (var : BitVec 3) : Option Variant :=
  match var.toNat with
  | 0 => some .sha1
  | 1 => some .sha224
  | 2 => some .sha256
  | 3 => some .sha384
  | 4 => some .sha512
  | 5 => some .sha512t224
  | 6 => some .sha512t256
  | _ => none

/-- The VAR code of a variant (R82). -/
def variantCode : Variant → BitVec 3
  | .sha1 => 0
  | .sha224 => 1
  | .sha256 => 2
  | .sha384 => 3
  | .sha512 => 4
  | .sha512t224 => 5
  | .sha512t256 => 6

/-- `block_len(v)`, in bytes (R101). -/
def blockLen : Variant → Nat
  | .sha1 | .sha224 | .sha256 => 64
  | .sha384 | .sha512 | .sha512t224 | .sha512t256 => 128

/-- `state_len(v)`, in bytes (R101). -/
def stateLen : Variant → Nat
  | .sha1 => 20
  | .sha224 | .sha256 => 32
  | .sha384 | .sha512 | .sha512t224 | .sha512t256 => 64

/-- `digest_len(v)`, in bytes (R101). -/
def digestLen : Variant → Nat
  | .sha1 => 20
  | .sha224 => 28
  | .sha256 => 32
  | .sha384 => 48
  | .sha512 => 64
  | .sha512t224 => 28
  | .sha512t256 => 32

/-- `pad_len(v)`, the width of the length field in bytes (R101, R105). -/
def padLen : Variant → Nat
  | .sha1 | .sha224 | .sha256 => 8
  | .sha384 | .sha512 | .sha512t224 | .sha512t256 => 16

/-- `Family(v)`: the dispatch (R160). -/
def familyOf : Variant → Family
  | .sha1 => .F0
  | .sha224 | .sha256 => .F1
  | .sha384 | .sha512 | .sha512t224 | .sha512t256 => .F2

/-- The value of ENG.FAMILY (R160). -/
def familyCode : Family → BitVec 2
  | .F0 => 0
  | .F1 => 1
  | .F2 => 2

/-- The family a value of ENG.FAMILY names; 3 names none (R28). -/
def familyOfCode? (x : BitVec 2) : Option Family :=
  match x.toNat with
  | 0 => some .F0
  | 1 => some .F1
  | 2 => some .F2
  | _ => none

/-- sl: the length of a family's state region in bytes (R57, R161). -/
def familyStateLen : Family → Nat
  | .F0 => 20
  | .F1 => 32
  | .F2 => 64

/-- bl: the length of a family's block region in bytes (R57, R161). -/
def familyBlockLen : Family → Nat
  | .F0 | .F1 => 64
  | .F2 => 128

/-- w: the word width of a family (R57, R161). -/
def familyWordBits : Family → Nat
  | .F0 | .F1 => 32
  | .F2 => 64

/-! ## Bytes and words (R12) -/

/-- The word whose most significant byte comes first. -/
def wordBE (w : Nat) (bs : List Byte) : BitVec w :=
  bs.foldl (fun acc b => (acc <<< 8) ||| b.setWidth w) 0

/-- The word whose least significant byte comes first. -/
def wordLE (w : Nat) (bs : List Byte) : BitVec w := wordBE w bs.reverse

/-- The bytes of a word, most significant first. -/
def bytesBE {w : Nat} (x : BitVec w) : List Byte :=
  (List.range (w / 8)).map fun j => (x >>> (8 * (w / 8 - 1 - j))).setWidth 8

/-- The bytes of a word, least significant first. -/
def bytesLE {w : Nat} (x : BitVec w) : List Byte := (bytesBE x).reverse

/-- The word of `w / 8` bytes in a byte order. -/
def wordOf (o : ByteOrder) (w : Nat) (bs : List Byte) : BitVec w :=
  match o with
  | .LE => wordLE w bs
  | .BE => wordBE w bs

/-- The bytes of a word in a byte order. -/
def bytesOf (o : ByteOrder) {w : Nat} (x : BitVec w) : List Byte :=
  match o with
  | .LE => bytesLE x
  | .BE => bytesBE x

/-- The `n` words of a region: word `i` stands at bytes `i*w/8 .. i*w/8 + w/8 - 1`. With `.BE` this is
`BE_w(m, i)` and with `.LE` it is `LE_w(m, i)`; with the platform's order it is `ST_w(m, i)`. -/
def wordsOf (o : ByteOrder) (w n : Nat) (bs : List Byte) : List (BitVec w) :=
  (List.range n).map fun i => wordOf o w ((bs.drop (i * (w / 8))).take (w / 8))

/-- `Bytes_w(H, order)`: the bytes of a list of words, in their order. -/
def regionBytes (o : ByteOrder) {w : Nat} (hs : List (BitVec w)) : List Byte :=
  hs.flatMap (bytesOf o)

/-! ## Word operations (R10) -/

/-- `SHR^n(x)`. -/
def shr {w : Nat} (n : Nat) (x : BitVec w) : BitVec w := x >>> n

/-- `ROTR^n(x)`, for `0 < n < w`. -/
def rotr {w : Nat} (n : Nat) (x : BitVec w) : BitVec w := (x >>> n) ||| (x <<< (w - n))

/-- `ROTL^n(x) = ROTR^(w-n)(x)`. -/
def rotl {w : Nat} (n : Nat) (x : BitVec w) : BitVec w := rotr (w - n) x

/-- `Ch(x, y, z)` (R182, R202, R222). -/
def ch {w : Nat} (x y z : BitVec w) : BitVec w := (x &&& y) ^^^ (~~~x &&& z)

/-- `Maj(x, y, z)` (R182, R202, R222). -/
def maj {w : Nat} (x y z : BitVec w) : BitVec w := (x &&& y) ^^^ (x &&& z) ^^^ (y &&& z)

/-- `Parity(x, y, z)` (R182). -/
def parity {w : Nat} (x y z : BitVec w) : BitVec w := x ^^^ y ^^^ z

end Sys2Proof.Machine
end

