-- ==== Sys2Proof/Machine/State.lean ====
section
/-! DEFINITION. The state of the machine as plain data: the registers of every instance of the block
(spec/10_state.md R20 to R38), the host memory (spec/20_memory.md R50), the platform parameters
(spec/00_scope.md R8), and the inputs from outside that are still to come (R16, R24: the host is the
sequencer). -/

namespace Sys2Proof.Machine

/-- What stops the machine for good. The seven fault codes of R260 are NOT here: the spec gives their entry
(R262), so a command that raises one has a next state. -/
inductive Fault where
  /-- Raised by COMPRESS when ENG is bound and ENG.FAMILY = 3: R28 says 3 is never written, so no run from
  reset reaches it (`State.Inv`), and R161 gives it no routine. Safe: the model stops. -/
  | familyReserved
deriving DecidableEq, Repr

/-- Why an agent has no step. Safe in every case: the model stops. -/
inductive Refusal where
  /-- Raised by `exec` for an instruction that has no meaning yet. Safe. -/
  | notModelled (mnemonic : String)
  /-- Raised by a host access to the window whose size is not 32 bits (R22, U7). Safe. -/
  | accessWidth
  /-- Raised by a host access to the window that is not 4-byte aligned (R22, U7). Safe. -/
  | accessMisaligned
  /-- Raised by a host access to one of the reserved offsets 0x24 and 0x30 to 0x3C (R20, R22, U7). Safe. -/
  | accessReserved
  /-- Raised by a register access or a reset that no instance decodes: it is no access to this block (R20).
  Safe. -/
  | noInstance
  /-- Raised by a host-memory access that touches a register window: byte accesses are not among the admitted
  window accesses (R22, R51). Safe. -/
  | memoryInWindow
  /-- Raised by a host-memory access that passes the top of the address space: there is no such byte (R50).
  Safe. -/
  | memoryPastTop
deriving DecidableEq, Repr

/-- The registers of the window, one for each defined offset of R20 (eleven; log entry 8). -/
inductive Reg where
  | CMD
  | STATUS
  | RESULT
  | ENG
  | STATE_ADDR_LO
  | STATE_ADDR_HI
  | BLOCK_ADDR_LO
  | BLOCK_ADDR_HI
  | FCMD
  | FADDR_LO
  | FADDR_HI
deriving DecidableEq, Repr

/-- The size of a host access (R22). -/
inductive AccessWidth where
  | w8
  | w16
  | w32
  | w64
deriving DecidableEq, Repr

/-- What another agent does to host memory while a command runs (R63), and a host store that is not yet visible
at the port when the command is written (R66, U11). -/
inductive OtherAccess where
  | read (addr : Addr)
  | write (addr : Addr) (value : Byte)
  | lateStore (addr : Addr) (value : Byte)
deriving DecidableEq, Repr

/-- One input from outside. The machine takes them one at a time, in order (R21, R62). -/
inductive HostEvent where
  /-- A host write to the register window (R22). A write to CMD is a command (R25). -/
  | write (width : AccessWidth) (addr : Addr) (value : Word)
  /-- A host read of the register window (R22). -/
  | read (width : AccessWidth) (addr : Addr)
  /-- HOST STORE: bytes stored into host memory, visible at the port before the next command (R66). -/
  | store (addr : Addr) (bytes : List Byte)
  /-- A host load from host memory (R62, R66). -/
  | load (addr : Addr) (count : Nat)
  /-- Reset of the instance whose window holds `addr`, between commands (R290). -/
  | reset (addr : Addr)
  /-- `word` is written to CMD of the instance whose window holds `addr`, and other agents touch host memory
  while the command runs (R63, U3, U11). -/
  | racing (addr : Addr) (word : Word) (others : List OtherAccess)
  /-- `word` is written to CMD of the instance whose window holds `addr`, and reset is asserted while the
  command executes (R292, U10). -/
  | resetDuring (addr : Addr) (word : Word)
deriving DecidableEq, Repr

/-- What the outside has been given back. -/
inductive Observation where
  /-- The value a host read of a register returned. -/
  | register (r : Reg) (value : Word)
  /-- The bytes a host load returned. -/
  | memory (addr : Addr) (bytes : List Byte)
  /-- The byte another agent read during a command. -/
  | otherAgent (addr : Addr) (value : Byte)
deriving DecidableEq, Repr

/-- One instance of the block: where its window stands, and its own copy of every register of R20 (R38). CMD
holds no value (R25). The two halves of a 64-bit register are views of one field. -/
structure Block where
  /-- `BASE`, the address of the 64-byte window (R8, R20). Fixed by the platform. -/
  base : Addr
  /-- STATUS (R26). -/
  status : Word
  /-- RESULT (R27). -/
  result : Word
  /-- ENG (R28). -/
  eng : Word
  /-- STATE_ADDR (R29). -/
  stateAddr : Addr
  /-- BLOCK_ADDR (R30). -/
  blockAddr : Addr
  /-- FCMD (R31). -/
  fcmd : Word
  /-- FADDR (R32). -/
  faddr : Addr
deriving DecidableEq, Repr

/-- Host memory: address and byte pairs, addresses strictly rising, no byte equal to what an unlisted address
reads as (`Memory.wf`). -/
abbrev Memory := List Host.Cell

/-- The whole machine. -/
structure State where
  /-- The instance that is addressed: commands act on it. -/
  blk : Block
  /-- The other instances, `N_INST - 1` of them (R8, R38). -/
  others : List Block
  /-- The host memory behind the engine's port (R50). -/
  mem : Memory
  /-- `MEM_ADMIT`, less the windows (R8, R51). Fixed by the platform. -/
  admitted : List Region
  /-- `STATE_ORDER` (R8, R55). Fixed by the platform. -/
  stateOrder : ByteOrder
  /-- The inputs still to come, the next one first. The model's own field. -/
  host : List HostEvent
  /-- What the outside has been given back, the latest first. The model's own field. -/
  observed : List Observation
  /-- How many free bytes have been drawn. The model's own field. -/
  draws : Nat
deriving DecidableEq, Repr

/-- An instance right after reset (R290): every register is 0. -/
def Block.atReset (base : Addr) : Block where
  base := base
  status := 0
  result := 0
  eng := 0
  stateAddr := 0
  blockAddr := 0
  fcmd := 0
  faddr := 0

/-- The machine right after reset (R290, R291): every register 0, idle, nothing pending. The platform parameters
stand at the start state of spec/95_test_vectors.md section 9 and the recommended default of R8 (log entry 2),
`BASE` at 0 (log entry 3), one instance (log entry 4), memory with nothing listed (log entry 5). -/
def State.reset : State where
  blk := Block.atReset 0
  others := []
  mem := []
  admitted := [⟨0x1000, 0x1FFF⟩]
  stateOrder := .LE
  host := []
  observed := []
  draws := 0

end Sys2Proof.Machine
end

