-- ==== Sys2Proof/Machine/Flags.lean ====
section
/-! DEFINITION. The fields of STATUS and ENG (spec/10_state.md R26 and R28). STATUS.FAULT is the block's only
flag (R36). -/

namespace Sys2Proof.Machine

/-- The value of FCODE that a fault code is recorded as (R260). -/
def faultCodeValue : FaultCode → BitVec 8
  | .illegalCmd => 0x01
  | .reservedVariant => 0x02
  | .reservedImpl => 0x03
  | .engineUnbound => 0x04
  | .unavailableImpl => 0x05
  | .busError => 0x06
  | .overlap => 0x07

/-- The fault codes of R260. -/
def allFaultCodes : List FaultCode :=
  [.illegalCmd, .reservedVariant, .reservedImpl, .engineUnbound, .unavailableImpl, .busError, .overlap]

/-- STATUS of a faulted block: `{16'b0, code[7:0], 7'b0, 1}` (R262). -/
def statusWord (code : FaultCode) : Word := 0#16 ++ faultCodeValue code ++ 0#7 ++ 1#1

/-- STATUS.FAULT (R26, R36). -/
def Block.faulted (b : Block) : Bool := b.status.getLsbD 0

/-- STATUS.FCODE (R26). -/
def Block.fcode (b : Block) : BitVec 8 := b.status.extractLsb' 8 8

/-- ENG of a binding: `{BOUND = 1, IMPL = i, FAMILY}`, every other bit 0 (R28, R162). -/
def engWord (impl : BitVec 4) (f : Family) : Word := 1#1 ++ 0#23 ++ impl ++ 0#2 ++ familyCode f

/-- ENG.BOUND (R28). -/
def Block.bound (b : Block) : Bool := b.eng.getLsbD 31

/-- ENG.IMPL (R28). -/
def Block.engImpl (b : Block) : BitVec 4 := b.eng.extractLsb' 4 4

/-- ENG.FAMILY (R28). -/
def Block.engFamily (b : Block) : BitVec 2 := b.eng.extractLsb' 0 2

end Sys2Proof.Machine
end

