-- ==== Sys2Proof/Machine/Ops.lean ====
section
/-! DEFINITION. The shared operations: host memory, admission of a region, the registers a command writes, fault
entry and reset (spec/20_memory.md R50 to R52, spec/60_exceptions.md R262, spec/70_reset_and_hazards.md R290). -/

namespace Sys2Proof.Machine

/-- What one step of this machine answers. -/
abbrev Answer := Host.Outcome State Fault Refusal

/-! ## Host memory -/

/-- What a byte that nothing has written reads as (log entry 5). -/
def unlistedByte : Byte := 0

/-- The byte at an address. -/
def readByte : Memory → Nat → Byte
  | [], _ => unlistedByte
  | (k, x) :: m, a => if a = k then x else readByte m a

/-- Store one byte, keeping the canonical form. -/
def writeByte : Memory → Nat → Byte → Memory
  | [], a, v => if v = unlistedByte then [] else [(a, v)]
  | (k, x) :: m, a, v =>
    if a < k then (if v = unlistedByte then (k, x) :: m else (a, v) :: (k, x) :: m)
    else if a = k then (if v = unlistedByte then m else (k, v) :: m)
    else (k, x) :: writeByte m a v

/-- `MemRead(addr, n)` (R11). -/
def readBytes (m : Memory) (a n : Nat) : List Byte := (List.range n).map fun k => readByte m (a + k)

/-- `MemWrite(addr, n, m)` (R11): byte `k` of the list goes to `addr + k`. -/
def writeBytes (m : Memory) (a : Nat) : List Byte → Memory
  | [] => m
  | b :: bs => writeBytes (writeByte m a b) (a + 1) bs

/-- The canonical form: addresses strictly rising and below `2^64`, and no byte that an unlisted address would
read as. -/
def Memory.wf : Memory → Bool
  | [] => true
  | [(k, x)] => decide (k < addrSpace) && x != unlistedByte
  | (k, x) :: (l, y) :: m => decide (k < l) && x != unlistedByte && Memory.wf ((l, y) :: m)

/-- A range of bytes: its first address and its length. -/
structure Span where
  base : Nat
  len : Nat
deriving DecidableEq, Repr

/-- The range holds the address. -/
def Span.has (r : Span) (a : Nat) : Bool := decide (r.base ≤ a) && decide (a < r.base + r.len)

/-- One of the ranges holds the address. -/
def spansHave (rs : List Span) (a : Nat) : Bool := rs.any (·.has a)

/-- The two ranges share a byte, by exact integer sums (R164). -/
def spansOverlap (r q : Span) : Bool := decide (r.base < q.base + q.len) && decide (q.base < r.base + r.len)

/-! ## Windows and admission -/

/-- The length of a register window (R20). -/
def windowLen : Nat := 64

/-- The instance decodes the address: it lies in `BASE .. BASE+63` (R20). -/
def Block.decodes (b : Block) (a : Nat) : Bool := Span.has ⟨b.base.toNat, windowLen⟩ a

/-- The address lies in the window of an instance. -/
def State.inWindow (s : State) (a : Nat) : Bool := s.blk.decodes a || s.others.any (·.decodes a)

/-- The region holds the address. -/
def Region.has (r : Region) (a : Nat) : Bool := decide (r.first.toNat ≤ a) && decide (a ≤ r.last.toNat)

/-- `MEM_ADMIT(a)`: the platform admits the byte, and it is in no register window (R8, R51; log entry 7). -/
def State.memAdmit (s : State) (a : Nat) : Bool := s.admitted.any (Region.has · a) && !s.inWindow a

/-- `Admit(addr, n)` (R52): no region crosses the top of the address space, and every byte is admitted. -/
def State.admits (s : State) (a : Addr) (n : Nat) : Bool :=
  decide (a.toNat + n ≤ addrSpace) && (List.range n).all fun k => s.memAdmit (a.toNat + k)

/-! ## Registers a command writes -/

/-- `RESULT <- v` (R27). -/
def State.setResult (s : State) (v : Word) : State := { s with blk := { s.blk with result := v } }

/-- `ENG <- v` (R28). -/
def State.setEng (s : State) (v : Word) : State := { s with blk := { s.blk with eng := v } }

/-- `STATE_ADDR <- v`, by the host (R29). -/
def State.setStateAddr (s : State) (v : Addr) : State := { s with blk := { s.blk with stateAddr := v } }

/-- `BLOCK_ADDR <- v`, by the host (R30). -/
def State.setBlockAddr (s : State) (v : Addr) : State := { s with blk := { s.blk with blockAddr := v } }

/-- `MemWrite(addr, |m|, m)` into the host memory. -/
def State.memWrite (s : State) (a : Nat) (bs : List Byte) : State := { s with mem := writeBytes s.mem a bs }

/-! ## Fault entry and reset -/

/-- `raise Fault(code, faddr)` during command `c` (R262): STATUS, FCMD and FADDR are written and nothing else
changes. There is no return from it (R267): only reset clears STATUS.FAULT (R266). -/
def State.raiseFault (s : State) (c : Word) (code : FaultCode) (faddr : Addr) : State :=
  { s with blk := { s.blk with status := statusWord code, fcmd := c, faddr := faddr } }

/-- Reset of the addressed instance (R290): every register takes its reset value, host memory is not
accessed, and the platform's parameters stand. -/
def State.resetBlk (s : State) : State := { s with blk := Block.atReset s.blk.base }

/-- The check of VAR (R86): 7 faults RESERVED_VARIANT. -/
def withVariant (c : Word) (var : BitVec 3) (s : State) (k : Variant → Answer) : Answer :=
  match variantOfCode? var with
  | none => .next (s.raiseFault c .reservedVariant 0)
  | some v => k v

/-- The check of IMPL (R86): a code outside `IMPL_SET` faults RESERVED_IMPL. -/
def withImpl (c : Word) (impl : BitVec 4) (s : State) (k : Answer) : Answer :=
  if implSet.contains impl then k else .next (s.raiseFault c .reservedImpl 0)

/-! ## Free bytes -/

/-- `n` free bytes, starting with the `d`-th of the run. -/
def freeBytes (d n : Nat) : List Byte := (List.range n).map fun k => freeByte (d + k)

/-- Every byte of a range becomes any value (R63, R292). -/
def State.drawSpan (s : State) (r : Span) : State :=
  { s with mem := writeBytes s.mem r.base (freeBytes s.draws r.len), draws := s.draws + r.len }

/-- Give something back to the outside. -/
def State.observe (s : State) (o : Observation) : State := { s with observed := o :: s.observed }

end Sys2Proof.Machine
end

