-- ==== Sys2Proof/Machine/InitState.lean ====
section
/-! DEFINITION. LDIV and the initial-state table (spec/41_initial_state.md R120 to R123). -/

namespace Sys2Proof.Machine

/-- `IV[v]`: the words of the initial state, `H[0]` first (R121). -/
def ivWords : Variant → List Nat
  | .sha1 =>
    [0x67452301, 0xEFCDAB89, 0x98BADCFE, 0x10325476, 0xC3D2E1F0]
  | .sha224 =>
    [0xC1059ED8, 0x367CD507, 0x3070DD17, 0xF70E5939,
     0xFFC00B31, 0x68581511, 0x64F98FA7, 0xBEFA4FA4]
  | .sha256 =>
    [0x6A09E667, 0xBB67AE85, 0x3C6EF372, 0xA54FF53A,
     0x510E527F, 0x9B05688C, 0x1F83D9AB, 0x5BE0CD19]
  | .sha384 =>
    [0xCBBB9D5DC1059ED8, 0x629A292A367CD507,
     0x9159015A3070DD17, 0x152FECD8F70E5939,
     0x67332667FFC00B31, 0x8EB44A8768581511,
     0xDB0C2E0D64F98FA7, 0x47B5481DBEFA4FA4]
  | .sha512 =>
    [0x6A09E667F3BCC908, 0xBB67AE8584CAA73B,
     0x3C6EF372FE94F82B, 0xA54FF53A5F1D36F1,
     0x510E527FADE682D1, 0x9B05688C2B3E6C1F,
     0x1F83D9ABFB41BD6B, 0x5BE0CD19137E2179]
  | .sha512t224 =>
    [0x8C3D37C819544DA2, 0x73E1996689DCD4D6,
     0x1DFAB7AE32FF9C82, 0x679DD514582F9FCF,
     0x0F6D2B697BD44DA8, 0x77E36F7304C48942,
     0x3F9D85A86A1D36C8, 0x1112E6AD91D692A1]
  | .sha512t256 =>
    [0x22312194FC2BF72C, 0x9F555FA3C84C64C2,
     0x2393B86B6F53B151, 0x963877195940EABD,
     0x96283EE2A88EFFE3, 0xBE5E1E2553863992,
     0x2B0199FC2C85B8AA, 0x0EB72DDC81C52CA2]

/-- `Bytes_w(IV[v], order)`: the bytes LDIV writes (R120), with the word width of the variant's family. -/
def ivBytes (o : ByteOrder) (v : Variant) : List Byte :=
  regionBytes o ((ivWords v).map (BitVec.ofNat (familyWordBits (familyOf v))))

/-- LDIV of a variant, once decoding has passed (R120). -/
def loadIv (c : Word) (s : State) (v : Variant) : Answer :=
  if s.admits s.blk.stateAddr (stateLen v) then
    .next (s.memWrite s.blk.stateAddr.toNat (ivBytes s.stateOrder v))
  else .next (s.raiseFault c .busError s.blk.stateAddr)

/-- LDIV (R120). -/
def execLdiv (var : BitVec 3) (s : State) : Answer :=
  withVariant (encode (.ldiv var)) var s (loadIv (encode (.ldiv var)) s)

end Sys2Proof.Machine
end

