-- ==== Sys2Proof/Machine/Sha1.lean ====
section
/-! DEFINITION. Family F0, the SHA-1 compression routine (spec/44_compress_sha1.md R180 to R185). Every word has 32
bits and every `+` wraps modulo 2^32. -/

namespace Sys2Proof.Machine

/-- The five working registers of one command (R184). They start and die inside it (R34). -/
structure Work5 where
  a : BitVec 32
  b : BitVec 32
  c : BitVec 32
  d : BitVec 32
  e : BitVec 32
deriving DecidableEq, Repr

/-- The round constant of round `t` (R181). -/
def sha1K (t : Nat) : BitVec 32 :=
  if t < 20 then 0x5A827999 else if t < 40 then 0x6ED9EBA1 else if t < 60 then 0x8F1BBCDC else 0xCA62C1D6

/-- `f_t(x, y, z)` (R182). -/
def sha1F (t : Nat) (x y z : BitVec 32) : BitVec 32 :=
  if t < 20 then ch x y z else if t < 40 then parity x y z else if t < 60 then maj x y z else parity x y z

/-- The word `W[t]` that follows the words listed, the latest first (R183). -/
def sha1NextW (ws : List (BitVec 32)) : BitVec 32 :=
  rotl 1 (ws.getD 2 0 ^^^ ws.getD 7 0 ^^^ ws.getD 13 0 ^^^ ws.getD 15 0)

/-- `n` more words of the schedule, the latest first. -/
def sha1Extend : Nat → List (BitVec 32) → List (BitVec 32)
  | 0, ws => ws
  | n + 1, ws => sha1Extend n (sha1NextW ws :: ws)

/-- The message schedule `W[0..79]` of a 16-word block (R183). -/
def sha1Schedule (m : List (BitVec 32)) : List (BitVec 32) := (sha1Extend 64 m.reverse).reverse

/-- Round `t` (R184). -/
def sha1Round (s : Work5) (t : Nat) (w : BitVec 32) : Work5 :=
  { a := rotl 5 s.a + sha1F t s.b s.c s.d + s.e + sha1K t + w
    b := s.a
    c := rotl 30 s.b
    d := s.c
    e := s.d }

/-- The rounds from round `t` on, one for each schedule word. -/
def sha1Rounds (t : Nat) (s : Work5) : List (BitVec 32) → Work5
  | [] => s
  | w :: ws => sha1Rounds (t + 1) (sha1Round s t w) ws

/-- The working registers at the start (R184). -/
def sha1Init (h : List (BitVec 32)) : Work5 :=
  ⟨h.getD 0 0, h.getD 1 0, h.getD 2 0, h.getD 3 0, h.getD 4 0⟩

/-- `SHA1Compress(H[0..4], M[0..15])` (R184). -/
def sha1Compress (h m : List (BitVec 32)) : List (BitVec 32) :=
  let r := sha1Rounds 0 (sha1Init h) (sha1Schedule m)
  [h.getD 0 0 + r.a, h.getD 1 0 + r.b, h.getD 2 0 + r.c, h.getD 3 0 + r.d, h.getD 4 0 + r.e]

end Sys2Proof.Machine
end

