-- ==== Sys2Proof/Machine/Sha256.lean ====
section
/-! DEFINITION. Family F1, the SHA-256 compression routine (spec/45_compress_sha256.md R200 to R205). Every word has
32 bits and every `+` wraps modulo 2^32. -/

namespace Sys2Proof.Machine

/-- The eight working registers of one command (R204, R224). They start and die inside it (R34). -/
structure Work8 (w : Nat) where
  a : BitVec w
  b : BitVec w
  c : BitVec w
  d : BitVec w
  e : BitVec w
  f : BitVec w
  g : BitVec w
  h : BitVec w
deriving DecidableEq, Repr

/-- Entries 0 to 15 of R201. -/
def k256Part0 : List (BitVec 32) :=
  [0x428A2F98, 0x71374491, 0xB5C0FBCF, 0xE9B5DBA5,
   0x3956C25B, 0x59F111F1, 0x923F82A4, 0xAB1C5ED5,
   0xD807AA98, 0x12835B01, 0x243185BE, 0x550C7DC3,
   0x72BE5D74, 0x80DEB1FE, 0x9BDC06A7, 0xC19BF174]

/-- Entries 16 to 31 of R201. -/
def k256Part1 : List (BitVec 32) :=
  [0xE49B69C1, 0xEFBE4786, 0x0FC19DC6, 0x240CA1CC,
   0x2DE92C6F, 0x4A7484AA, 0x5CB0A9DC, 0x76F988DA,
   0x983E5152, 0xA831C66D, 0xB00327C8, 0xBF597FC7,
   0xC6E00BF3, 0xD5A79147, 0x06CA6351, 0x14292967]

/-- Entries 32 to 47 of R201. -/
def k256Part2 : List (BitVec 32) :=
  [0x27B70A85, 0x2E1B2138, 0x4D2C6DFC, 0x53380D13,
   0x650A7354, 0x766A0ABB, 0x81C2C92E, 0x92722C85,
   0xA2BFE8A1, 0xA81A664B, 0xC24B8B70, 0xC76C51A3,
   0xD192E819, 0xD6990624, 0xF40E3585, 0x106AA070]

/-- Entries 48 to 63 of R201. -/
def k256Part3 : List (BitVec 32) :=
  [0x19A4C116, 0x1E376C08, 0x2748774C, 0x34B0BCB5,
   0x391C0CB3, 0x4ED8AA4A, 0x5B9CCA4F, 0x682E6FF3,
   0x748F82EE, 0x78A5636F, 0x84C87814, 0x8CC70208,
   0x90BEFFFA, 0xA4506CEB, 0xBEF9A3F7, 0xC67178F2]

/-- The round constants `K256[0..63]` (R201). -/
def k256 : List (BitVec 32) := k256Part0 ++ k256Part1 ++ k256Part2 ++ k256Part3

/-- `Σ0` (R202). -/
def bigSigma0W32 (x : BitVec 32) : BitVec 32 := rotr 2 x ^^^ rotr 13 x ^^^ rotr 22 x

/-- `Σ1` (R202). -/
def bigSigma1W32 (x : BitVec 32) : BitVec 32 := rotr 6 x ^^^ rotr 11 x ^^^ rotr 25 x

/-- `σ0` (R202). -/
def smallSigma0W32 (x : BitVec 32) : BitVec 32 := rotr 7 x ^^^ rotr 18 x ^^^ shr 3 x

/-- `σ1` (R202). -/
def smallSigma1W32 (x : BitVec 32) : BitVec 32 := rotr 17 x ^^^ rotr 19 x ^^^ shr 10 x

/-- The word `W[t]` that follows the words listed, the latest first (R203). -/
def sha256NextW (ws : List (BitVec 32)) : BitVec 32 :=
  smallSigma1W32 (ws.getD 1 0) + ws.getD 6 0 + smallSigma0W32 (ws.getD 14 0) + ws.getD 15 0

/-- `n` more words of the schedule, the latest first. -/
def sha256Extend : Nat → List (BitVec 32) → List (BitVec 32)
  | 0, ws => ws
  | n + 1, ws => sha256Extend n (sha256NextW ws :: ws)

/-- The message schedule `W[0..63]` of a 16-word block (R203). -/
def sha256Schedule (m : List (BitVec 32)) : List (BitVec 32) := (sha256Extend 48 m.reverse).reverse

/-- `T1` of a round with the constant `k` and the schedule word `w` (R204). -/
def sha256T1 (s : Work8 32) (k w : BitVec 32) : BitVec 32 :=
  s.h + bigSigma1W32 s.e + ch s.e s.f s.g + k + w

/-- `T2` of a round (R204). -/
def sha256T2 (s : Work8 32) : BitVec 32 := bigSigma0W32 s.a + maj s.a s.b s.c

/-- One round with the constant `k` and the schedule word `w` (R204). -/
def sha256Round (s : Work8 32) (k w : BitVec 32) : Work8 32 :=
  { a := sha256T1 s k w + sha256T2 s
    b := s.a
    c := s.b
    d := s.c
    e := s.d + sha256T1 s k w
    f := s.e
    g := s.f
    h := s.g }

/-- The rounds, one for each pair of a constant and a schedule word. -/
def sha256Rounds (s : Work8 32) : List (BitVec 32 × BitVec 32) → Work8 32
  | [] => s
  | (k, w) :: kws => sha256Rounds (sha256Round s k w) kws

/-- The working registers at the start (R204). -/
def sha256Init (h : List (BitVec 32)) : Work8 32 :=
  ⟨h.getD 0 0, h.getD 1 0, h.getD 2 0, h.getD 3 0, h.getD 4 0, h.getD 5 0, h.getD 6 0, h.getD 7 0⟩

/-- `SHA256Compress(H[0..7], M[0..15])` (R204). -/
def sha256Compress (h m : List (BitVec 32)) : List (BitVec 32) :=
  let r := sha256Rounds (sha256Init h) (k256.zip (sha256Schedule m))
  [h.getD 0 0 + r.a, h.getD 1 0 + r.b, h.getD 2 0 + r.c, h.getD 3 0 + r.d,
   h.getD 4 0 + r.e, h.getD 5 0 + r.f, h.getD 6 0 + r.g, h.getD 7 0 + r.h]

end Sys2Proof.Machine
end

