-- ==== Sys2Proof/Machine/Sha512.lean ====
section
/-! DEFINITION. Family F2, the SHA-512 compression routine (spec/46_compress_sha512.md R220 to R225). Every word has
64 bits and every `+` wraps modulo 2^64. -/

namespace Sys2Proof.Machine

/-- Entries 0 to 15 of R221. -/
def k512Part0 : List (BitVec 64) :=
  [0x428A2F98D728AE22, 0x7137449123EF65CD,
   0xB5C0FBCFEC4D3B2F, 0xE9B5DBA58189DBBC,
   0x3956C25BF348B538, 0x59F111F1B605D019,
   0x923F82A4AF194F9B, 0xAB1C5ED5DA6D8118,
   0xD807AA98A3030242, 0x12835B0145706FBE,
   0x243185BE4EE4B28C, 0x550C7DC3D5FFB4E2,
   0x72BE5D74F27B896F, 0x80DEB1FE3B1696B1,
   0x9BDC06A725C71235, 0xC19BF174CF692694]

/-- Entries 16 to 31 of R221. -/
def k512Part1 : List (BitVec 64) :=
  [0xE49B69C19EF14AD2, 0xEFBE4786384F25E3,
   0x0FC19DC68B8CD5B5, 0x240CA1CC77AC9C65,
   0x2DE92C6F592B0275, 0x4A7484AA6EA6E483,
   0x5CB0A9DCBD41FBD4, 0x76F988DA831153B5,
   0x983E5152EE66DFAB, 0xA831C66D2DB43210,
   0xB00327C898FB213F, 0xBF597FC7BEEF0EE4,
   0xC6E00BF33DA88FC2, 0xD5A79147930AA725,
   0x06CA6351E003826F, 0x142929670A0E6E70]

/-- Entries 32 to 47 of R221. -/
def k512Part2 : List (BitVec 64) :=
  [0x27B70A8546D22FFC, 0x2E1B21385C26C926,
   0x4D2C6DFC5AC42AED, 0x53380D139D95B3DF,
   0x650A73548BAF63DE, 0x766A0ABB3C77B2A8,
   0x81C2C92E47EDAEE6, 0x92722C851482353B,
   0xA2BFE8A14CF10364, 0xA81A664BBC423001,
   0xC24B8B70D0F89791, 0xC76C51A30654BE30,
   0xD192E819D6EF5218, 0xD69906245565A910,
   0xF40E35855771202A, 0x106AA07032BBD1B8]

/-- Entries 48 to 63 of R221. -/
def k512Part3 : List (BitVec 64) :=
  [0x19A4C116B8D2D0C8, 0x1E376C085141AB53,
   0x2748774CDF8EEB99, 0x34B0BCB5E19B48A8,
   0x391C0CB3C5C95A63, 0x4ED8AA4AE3418ACB,
   0x5B9CCA4F7763E373, 0x682E6FF3D6B2B8A3,
   0x748F82EE5DEFB2FC, 0x78A5636F43172F60,
   0x84C87814A1F0AB72, 0x8CC702081A6439EC,
   0x90BEFFFA23631E28, 0xA4506CEBDE82BDE9,
   0xBEF9A3F7B2C67915, 0xC67178F2E372532B]

/-- Entries 64 to 79 of R221. -/
def k512Part4 : List (BitVec 64) :=
  [0xCA273ECEEA26619C, 0xD186B8C721C0C207,
   0xEADA7DD6CDE0EB1E, 0xF57D4F7FEE6ED178,
   0x06F067AA72176FBA, 0x0A637DC5A2C898A6,
   0x113F9804BEF90DAE, 0x1B710B35131C471B,
   0x28DB77F523047D84, 0x32CAAB7B40C72493,
   0x3C9EBE0A15C9BEBC, 0x431D67C49C100D4C,
   0x4CC5D4BECB3E42B6, 0x597F299CFC657E2A,
   0x5FCB6FAB3AD6FAEC, 0x6C44198C4A475817]

/-- The round constants `K512[0..79]` (R221). -/
def k512 : List (BitVec 64) := k512Part0 ++ k512Part1 ++ k512Part2 ++ k512Part3 ++ k512Part4

/-- `Σ0` (R222). -/
def bigSigma0W64 (x : BitVec 64) : BitVec 64 := rotr 28 x ^^^ rotr 34 x ^^^ rotr 39 x

/-- `Σ1` (R222). -/
def bigSigma1W64 (x : BitVec 64) : BitVec 64 := rotr 14 x ^^^ rotr 18 x ^^^ rotr 41 x

/-- `σ0` (R222). -/
def smallSigma0W64 (x : BitVec 64) : BitVec 64 := rotr 1 x ^^^ rotr 8 x ^^^ shr 7 x

/-- `σ1` (R222). -/
def smallSigma1W64 (x : BitVec 64) : BitVec 64 := rotr 19 x ^^^ rotr 61 x ^^^ shr 6 x

/-- The word `W[t]` that follows the words listed, the latest first (R223). -/
def sha512NextW (ws : List (BitVec 64)) : BitVec 64 :=
  smallSigma1W64 (ws.getD 1 0) + ws.getD 6 0 + smallSigma0W64 (ws.getD 14 0) + ws.getD 15 0

/-- `n` more words of the schedule, the latest first. -/
def sha512Extend : Nat → List (BitVec 64) → List (BitVec 64)
  | 0, ws => ws
  | n + 1, ws => sha512Extend n (sha512NextW ws :: ws)

/-- The message schedule `W[0..79]` of a 16-word block (R223). -/
def sha512Schedule (m : List (BitVec 64)) : List (BitVec 64) := (sha512Extend 64 m.reverse).reverse

/-- `T1` of a round with the constant `k` and the schedule word `w` (R224). -/
def sha512T1 (s : Work8 64) (k w : BitVec 64) : BitVec 64 :=
  s.h + bigSigma1W64 s.e + ch s.e s.f s.g + k + w

/-- `T2` of a round (R224). -/
def sha512T2 (s : Work8 64) : BitVec 64 := bigSigma0W64 s.a + maj s.a s.b s.c

/-- One round with the constant `k` and the schedule word `w` (R224). -/
def sha512Round (s : Work8 64) (k w : BitVec 64) : Work8 64 :=
  { a := sha512T1 s k w + sha512T2 s
    b := s.a
    c := s.b
    d := s.c
    e := s.d + sha512T1 s k w
    f := s.e
    g := s.f
    h := s.g }

/-- The rounds, one for each pair of a constant and a schedule word. -/
def sha512Rounds (s : Work8 64) : List (BitVec 64 × BitVec 64) → Work8 64
  | [] => s
  | (k, w) :: kws => sha512Rounds (sha512Round s k w) kws

/-- The working registers at the start (R224). -/
def sha512Init (h : List (BitVec 64)) : Work8 64 :=
  ⟨h.getD 0 0, h.getD 1 0, h.getD 2 0, h.getD 3 0, h.getD 4 0, h.getD 5 0, h.getD 6 0, h.getD 7 0⟩

/-- `SHA512Compress(H[0..7], M[0..15])` (R224). -/
def sha512Compress (h m : List (BitVec 64)) : List (BitVec 64) :=
  let r := sha512Rounds (sha512Init h) (k512.zip (sha512Schedule m))
  [h.getD 0 0 + r.a, h.getD 1 0 + r.b, h.getD 2 0 + r.c, h.getD 3 0 + r.d,
   h.getD 4 0 + r.e, h.getD 5 0 + r.f, h.getD 6 0 + r.g, h.getD 7 0 + r.h]

end Sys2Proof.Machine
end

