-- ==== Sys2Proof/Machine/Engine.lean ====
section
/-! DEFINITION. Binding and compression: ENGNEW, ENGREF and COMPRESS (spec/43_engine_dispatch.md R160 to R168). -/

namespace Sys2Proof.Machine

/-! ## Binding -/

/-- The singleton id `3 * i + Family(v)` (R35, R163). -/
def singletonId (impl : BitVec 4) (f : Family) : Word := BitVec.ofNat 32 (3 * impl.toNat + (familyCode f).toNat)

/-- ENGNEW (R162). -/
def execEngnew (var : BitVec 3) (impl : BitVec 4) (s : State) : Answer :=
  withVariant (encode (.engnew var impl)) var s fun v =>
    withImpl (encode (.engnew var impl)) impl s (.next (s.setEng (engWord impl (familyOf v))))

/-- ENGREF (R163). -/
def execEngref (var : BitVec 3) (impl : BitVec 4) (s : State) : Answer :=
  withVariant (encode (.engref var impl)) var s fun v =>
    withImpl (encode (.engref var impl)) impl s
      (.next ((s.setEng (engWord impl (familyOf v))).setResult (singletonId impl (familyOf v))))

/-! ## Compression -/

/-- The bound routine on the bytes of the two regions (R161, R164): the state bytes are read and written in
`STATE_ORDER` (R55), the block bytes are big-endian words (R56). -/
def routineBytes (o : ByteOrder) : Family → List Byte → List Byte → List Byte
  | .F0, st, blk => regionBytes o (sha1Compress (wordsOf o 32 5 st) (wordsOf .BE 32 16 blk))
  | .F1, st, blk => regionBytes o (sha256Compress (wordsOf o 32 8 st) (wordsOf .BE 32 16 blk))
  | .F2, st, blk => regionBytes o (sha512Compress (wordsOf o 64 8 st) (wordsOf .BE 64 16 blk))

/-- The state region of a binding of family `f`. -/
def State.stateSpan (s : State) (f : Family) : Span := ⟨s.blk.stateAddr.toNat, familyStateLen f⟩

/-- The block region of a binding of family `f`. -/
def State.blockSpan (s : State) (f : Family) : Span := ⟨s.blk.blockAddr.toNat, familyBlockLen f⟩

/-- What the checks of COMPRESS come to. -/
inductive CompressCheck where
  /-- A check failed: this fault is raised. -/
  | raise (code : FaultCode) (faddr : Addr)
  /-- ENG holds the family code 3, which has no routine (R28, R161). -/
  | stuck
  /-- Every check passed: this family's routine runs. -/
  | run (f : Family)
deriving DecidableEq, Repr

/-- The checks of COMPRESS, in the order of R164. -/
def compressCheck (s : State) : CompressCheck :=
  if !s.blk.bound then .raise .engineUnbound 0
  else if !avail s.blk.engImpl then .raise .unavailableImpl 0
  else match familyOfCode? s.blk.engFamily with
    | none => .stuck
    | some f =>
      if !s.admits s.blk.stateAddr (familyStateLen f) then .raise .busError s.blk.stateAddr
      else if !s.admits s.blk.blockAddr (familyBlockLen f) then .raise .busError s.blk.blockAddr
      else if spansOverlap (s.stateSpan f) (s.blockSpan f) then .raise .overlap 0
      else .run f

/-- The bytes COMPRESS writes back when family `f`'s routine runs (R164). -/
def compressBytes (s : State) (f : Family) : List Byte :=
  routineBytes s.stateOrder f
    (readBytes s.mem s.blk.stateAddr.toNat (familyStateLen f))
    (readBytes s.mem s.blk.blockAddr.toNat (familyBlockLen f))

/-- COMPRESS (R164). -/
def execCompress (s : State) : Answer :=
  match compressCheck s with
  | .raise code faddr => .next (s.raiseFault (encode .compress) code faddr)
  | .stuck => .fault .familyReserved
  | .run f => .next (s.memWrite s.blk.stateAddr.toNat (compressBytes s f))

/-! ## What a command reads and writes in host memory (R50, R61, R263) -/

/-- The ranges a command reads. A command that faults makes no access. -/
def memReads (i : Instr) (s : State) : List Span :=
  match i with
  | .compress =>
    match compressCheck s with
    | .run f => [s.blockSpan f, s.stateSpan f]
    | _ => []
  | _ => []

/-- The ranges a command writes. A command that faults makes no access. -/
def memWrites (i : Instr) (s : State) : List Span :=
  match i with
  | .ldiv var =>
    match variantOfCode? var with
    | some v => if s.admits s.blk.stateAddr (stateLen v) then [⟨s.blk.stateAddr.toNat, stateLen v⟩] else []
    | none => []
  | .compress =>
    match compressCheck s with
    | .run f => [s.stateSpan f]
    | _ => []
  | _ => []

end Sys2Proof.Machine
end

