-- ==== Sys2Proof/Machine/Query.lean ====
section
/-! DEFINITION. The variant descriptor queries QBLK, QSTL, QDGL and QPDL (spec/40_variant_queries.md R102 to
R105). -/

namespace Sys2Proof.Machine

/-- A query with command word `c`: `RESULT <- zext_32(len(v))` (R102 to R105). -/
def query (c : Word) (var : BitVec 3) (len : Variant → Nat) (s : State) : Answer :=
  withVariant c var s fun v => .next (s.setResult (BitVec.ofNat 32 (len v)))

/-- QBLK: the block length (R102). -/
def execQblk (var : BitVec 3) (s : State) : Answer := query (encode (.qblk var)) var blockLen s

/-- QSTL: the state length (R103). -/
def execQstl (var : BitVec 3) (s : State) : Answer := query (encode (.qstl var)) var stateLen s

/-- QDGL: the digest length (R104). -/
def execQdgl (var : BitVec 3) (s : State) : Answer := query (encode (.qdgl var)) var digestLen s

/-- QPDL: the width of the padding's length field (R105). -/
def execQpdl (var : BitVec 3) (s : State) : Answer := query (encode (.qpdl var)) var padLen s

end Sys2Proof.Machine
end

