-- ==== Sys2Proof/Machine/Selector.lean ====
section
/-! DEFINITION. The implementation selector FAST, FASTRT and AVAIL (spec/42_impl_selector.md R141 to R143). -/

namespace Sys2Proof.Machine

/-- FAST: `RESULT <- 0`, the code of Generic; AVAIL is not consulted (R141). -/
def execFast (s : State) : Answer := .next (s.setResult (implGeneric.setWidth 32))

/-- FASTRT: `RESULT <- 0`, the only implemented code, which is available (R142, R145). -/
def execFastrt (s : State) : Answer := .next (s.setResult (implGeneric.setWidth 32))

/-- AVAIL: `RESULT <- (AVAIL(i) ? 1 : 0)` (R143). -/
def execAvail (impl : BitVec 4) (s : State) : Answer :=
  withImpl (encode (.avail impl)) impl s (.next (s.setResult (if avail impl then 1 else 0)))

end Sys2Proof.Machine
end

