-- ==== Sys2Proof/Machine/Dispatch.lean ====
section
/-! DEFINITION. One arm per command (spec/30_encoding.md R84). -/

namespace Sys2Proof.Machine

def exec (i : Instr) (s : State) : Host.Outcome State Fault Refusal :=
  match i with
  | .qblk var => Sys2Proof.Machine.execQblk var s
  | .qstl var => Sys2Proof.Machine.execQstl var s
  | .qdgl var => Sys2Proof.Machine.execQdgl var s
  | .qpdl var => Sys2Proof.Machine.execQpdl var s
  | .ldiv var => Sys2Proof.Machine.execLdiv var s
  | .fast => Sys2Proof.Machine.execFast s
  | .fastrt => Sys2Proof.Machine.execFastrt s
  | .avail impl => Sys2Proof.Machine.execAvail impl s
  | .engnew var impl => Sys2Proof.Machine.execEngnew var impl s
  | .engref var impl => Sys2Proof.Machine.execEngref var impl s
  | .compress => Sys2Proof.Machine.execCompress s

end Sys2Proof.Machine
end

