-- ==== Sys2Proof/Machine/Window.lean ====
section
/-! DEFINITION. The register window as the host sees it, and a word written to CMD (spec/10_state.md R20 to R32,
spec/30_encoding.md R86, spec/60_exceptions.md R266). -/

namespace Sys2Proof.Machine

/-- The register at an offset of the window; none at the reserved offsets 0x24 and 0x30 to 0x3C (R20). -/
def regAt? (offset : Nat) : Option Reg :=
  match offset with
  | 0x00 => some .CMD
  | 0x04 => some .STATUS
  | 0x08 => some .RESULT
  | 0x0C => some .ENG
  | 0x10 => some .STATE_ADDR_LO
  | 0x14 => some .STATE_ADDR_HI
  | 0x18 => some .BLOCK_ADDR_LO
  | 0x1C => some .BLOCK_ADDR_HI
  | 0x20 => some .FCMD
  | 0x28 => some .FADDR_LO
  | 0x2C => some .FADDR_HI
  | _ => none

/-- The offset of a register (R20). -/
def regOffset : Reg → Nat
  | .CMD => 0x00
  | .STATUS => 0x04
  | .RESULT => 0x08
  | .ENG => 0x0C
  | .STATE_ADDR_LO => 0x10
  | .STATE_ADDR_HI => 0x14
  | .BLOCK_ADDR_LO => 0x18
  | .BLOCK_ADDR_HI => 0x1C
  | .FCMD => 0x20
  | .FADDR_LO => 0x28
  | .FADDR_HI => 0x2C

/-- The low half of a 64-bit register. -/
def lowHalf (x : Addr) : Word := x.extractLsb' 0 32

/-- The high half of a 64-bit register. -/
def highHalf (x : Addr) : Word := x.extractLsb' 32 32

/-- A 64-bit register with its low half replaced (R88, R295). -/
def withLow (x : Addr) (v : Word) : Addr := highHalf x ++ v

/-- A 64-bit register with its high half replaced (R88, R295). -/
def withHigh (x : Addr) (v : Word) : Addr := v ++ lowHalf x

/-- What a host read of a register returns (R20, R25: CMD reads as 0). -/
def readReg (r : Reg) (b : Block) : Word :=
  match r with
  | .CMD => 0
  | .STATUS => b.status
  | .RESULT => b.result
  | .ENG => b.eng
  | .STATE_ADDR_LO => lowHalf b.stateAddr
  | .STATE_ADDR_HI => highHalf b.stateAddr
  | .BLOCK_ADDR_LO => lowHalf b.blockAddr
  | .BLOCK_ADDR_HI => highHalf b.blockAddr
  | .FCMD => b.fcmd
  | .FADDR_LO => lowHalf b.faddr
  | .FADDR_HI => highHalf b.faddr

/-- The command word `c` reaches the addressed instance. A faulted block discards it before decoding (R25,
R266); a word of no row is ILLEGAL_CMD (R86, R87); any other is its row's command (R21; log entries
15 and 16). -/
def runCommand (c : Word) (s : State) : Answer :=
  if s.blk.faulted then .next s
  else match decode c with
    | .error _ => .next (s.raiseFault c .illegalCmd 0)
    | .ok i => exec i s

/-- A host write of a register (R22): CMD runs a command, the address halves are replaced whether or not the
block is faulted, and a write to a read-only register has no effect. -/
def writeReg (r : Reg) (v : Word) (s : State) : Answer :=
  match r with
  | .CMD => runCommand v s
  | .STATE_ADDR_LO => .next (s.setStateAddr (withLow s.blk.stateAddr v))
  | .STATE_ADDR_HI => .next (s.setStateAddr (withHigh s.blk.stateAddr v))
  | .BLOCK_ADDR_LO => .next (s.setBlockAddr (withLow s.blk.blockAddr v))
  | .BLOCK_ADDR_HI => .next (s.setBlockAddr (withHigh s.blk.blockAddr v))
  | .STATUS | .RESULT | .ENG | .FCMD | .FADDR_LO | .FADDR_HI => .next s

/-- The instance that decodes an address, taken out of a list, and the list without it. -/
def takeBlock (a : Nat) : List Block → Option (Block × List Block)
  | [] => none
  | b :: bs =>
    if b.decodes a then some (b, bs)
    else match takeBlock a bs with
      | none => none
      | some (x, rest) => some (x, b :: rest)

/-- The machine with the instance whose window holds `a` as the addressed one (R20, R38); none where no window
holds it. -/
def State.select (s : State) (a : Addr) : Option State :=
  if s.blk.decodes a.toNat then some s
  else match takeBlock a.toNat s.others with
    | none => none
    | some (b, rest) => some { s with blk := b, others := s.blk :: rest }

/-- The register a host access reaches, or why it reaches none (R22; log entry 21). -/
def accessReg (w : AccessWidth) (a : Addr) (b : Block) : Except Refusal Reg :=
  if w ≠ .w32 then .error .accessWidth
  else if a.toNat % 4 ≠ 0 then .error .accessMisaligned
  else match regAt? (a.toNat - b.base.toNat) with
    | none => .error .accessReserved
    | some r => .ok r

end Sys2Proof.Machine
end

