-- ==== Sys2Proof/Machine/Events.lean ====
section
/-! DEFINITION. What one input from outside does: host accesses, host memory, reset, and the two events that the
spec gives as draws (spec/10_state.md R22, spec/20_memory.md R62, R63 and R66, spec/70_reset_and_hazards.md
R290 and R292). -/

namespace Sys2Proof.Machine

/-- A host access to the register window (R22). -/
def windowWrite (w : AccessWidth) (a : Addr) (v : Word) (s : State) : Answer :=
  match s.select a with
  | none => .refused .noInstance
  | some t =>
    match accessReg w a t.blk with
    | .error r => .refused r
    | .ok r => writeReg r v t

/-- A host read of the register window (R22). -/
def windowRead (w : AccessWidth) (a : Addr) (s : State) : Answer :=
  match s.select a with
  | none => .refused .noInstance
  | some t =>
    match accessReg w a t.blk with
    | .error r => .refused r
    | .ok r => .next (t.observe (.register r (readReg r t.blk)))

/-- Why a range of host memory cannot be accessed as memory: it passes the top of the address space, or it
touches a register window (R22, R50, R51; log entries 11 and 12). -/
def memoryRefusal (s : State) (a : Addr) (n : Nat) : Option Refusal :=
  if addrSpace < a.toNat + n then some .memoryPastTop
  else if (List.range n).any fun k => s.inWindow (a.toNat + k) then some .memoryInWindow
  else none

/-- HOST STORE (R62, R66). -/
def hostStore (a : Addr) (bs : List Byte) (s : State) : Answer :=
  match memoryRefusal s a bs.length with
  | some r => .refused r
  | none => .next (s.memWrite a.toNat bs)

/-- A host load (R62, R66). -/
def hostLoad (a : Addr) (n : Nat) (s : State) : Answer :=
  match memoryRefusal s a n with
  | some r => .refused r
  | none => .next (s.observe (.memory a (readBytes s.mem a.toNat n)))

/-- Reset between commands (R290). -/
def resetEvent (a : Addr) (s : State) : Answer :=
  match s.select a with
  | none => .refused .noInstance
  | some t => .next t.resetBlk

/-! ## Races (R63, R66, U3, U11) -/

/-- The command a word runs on a state, if it runs one: none while faulted, and none for a word of no row. -/
def commandOf (c : Word) (s : State) : Option Instr :=
  if s.blk.faulted then none
  else match decode c with
    | .error _ => none
    | .ok i => some i

/-- The ranges the command word reads. -/
def wordReads (c : Word) (s : State) : List Span :=
  match commandOf c s with
  | none => []
  | some i => memReads i s

/-- The ranges the command word writes. -/
def wordWrites (c : Word) (s : State) : List Span :=
  match commandOf c s with
  | none => []
  | some i => memWrites i s

/-- The address another agent touches. -/
def otherAddr : OtherAccess → Addr
  | .read a => a
  | .write a _ => a
  | .lateStore a _ => a

/-- The access races with a command that reads the ranges `rs` and writes the ranges `ws`: a write (or a store
that is not visible yet) to a byte of either, or a read of a byte that is written (R63, U11). -/
def otherRaces (rs ws : List Span) : OtherAccess → Bool
  | .read a => spansHave ws a.toNat
  | .write a _ => spansHave rs a.toNat || spansHave ws a.toNat
  | .lateStore a _ => spansHave rs a.toNat || spansHave ws a.toNat

/-- What another agent's access does outside the range the command writes; a byte it reads inside is any
value. -/
def otherEffect (ws : List Span) (s : State) : OtherAccess → State
  | .read a =>
    if spansHave ws a.toNat then
      { s.observe (.otherAgent a (freeByte s.draws)) with draws := s.draws + 1 }
    else s.observe (.otherAgent a (readByte s.mem a.toNat))
  | .write a v => s.memWrite a.toNat [v]
  | .lateStore a v => s.memWrite a.toNat [v]

/-- The end of a command that other agents touched: their accesses, and, if one of them races, any value in
every byte the command wrote (R63; log entry 13). -/
def settleRace (rs ws : List Span) (others : List OtherAccess) (s : State) : State :=
  let t := others.foldl (otherEffect ws) s
  if others.any (otherRaces rs ws) then ws.foldl State.drawSpan t else t

/-- A command while other agents touch host memory (R63). The register effects are the command's own (U3). -/
def racingCommand (a : Addr) (c : Word) (others : List OtherAccess) (s : State) : Answer :=
  match s.select a with
  | none => .refused .noInstance
  | some t =>
    if others.any fun o => s.inWindow (otherAddr o).toNat then .refused .memoryInWindow
    else match runCommand c t with
      | .next u => .next (settleRace (wordReads c t) (wordWrites c t) others u)
      | .fault f => .fault f
      | .refused r => .refused r

/-! ## Reset during a command (R292, U10) -/

/-- The command is abandoned: the bytes of its state region are any values, and the registers take their reset
values (log entry 14). -/
def abandonedCommand (a : Addr) (c : Word) (s : State) : Answer :=
  match s.select a with
  | none => .refused .noInstance
  | some t => .next ((wordWrites c t).foldl State.drawSpan t).resetBlk

/-- One input from outside. -/
def hostEvent (e : HostEvent) (s : State) : Answer :=
  match e with
  | .write w a v => windowWrite w a v s
  | .read w a => windowRead w a s
  | .store a bs => hostStore a bs s
  | .load a n => hostLoad a n s
  | .reset a => resetEvent a s
  | .racing a c others => racingCommand a c others s
  | .resetDuring a c => abandonedCommand a c s

end Sys2Proof.Machine
end

