-- ==== Sys2Proof/Machine/Step.lean ====
section
/-! DEFINITION. One step: the next input from outside is taken (spec/10_state.md R21 and R24: the block fetches
nothing, the host is the sequencer). -/

namespace Sys2Proof.Machine

/-- One step. With no input pending the block is idle and keeps its state (R273, R291;
log entry 10). -/
def step (s : State) : Host.Outcome State Fault Refusal :=
  match s.host with
  | [] => .next s
  | e :: rest => hostEvent e { s with host := rest }

/-- The machine with one table word as its next input: a 32-bit host write of that word to CMD of the addressed
instance (R80). Log entry 10. -/
def State.withFetchWord (s : State) (nbits w : Nat) : State :=
  { s with host := .write .w32 s.blk.base (BitVec.ofNat 32 (w % 2 ^ nbits)) :: s.host }

end Sys2Proof.Machine
end

