-- ==== Sys2Proof/Machine/HostBoundary.lean ====
section
/-! DEFINITION. The host's side of the boundary (spec/47_host_boundary.md R240 to R244, spec/30_encoding.md R89 and
R90): padding, the session's accesses, the digest, and the notation of a command. Nothing here is performed
by the block; `step` does not use it (log entry 20). -/

namespace Sys2Proof.Machine

/-! ## Padding and digest -/

/-- z: the least number of zero bytes that fills the last block (R241). -/
def padZeros (v : Variant) (n : Nat) : Nat :=
  (blockLen v - (n + 1 + padLen v) % blockLen v) % blockLen v

/-- `Pad(msg, v)` (R241): the message, 0x80, z zero bytes, and the length in bits as a big-endian field of
`pad_len(v)` bytes. -/
def pad (v : Variant) (msg : List Byte) : List Byte :=
  msg ++ 0x80 :: (List.replicate (padZeros v msg.length) 0
    ++ bytesBE (BitVec.ofNat (8 * padLen v) (8 * msg.length)))

/-- The blocks `B[0..m-1]` of a padded message, in order (R241). -/
def blocksOf (v : Variant) (padded : List Byte) : List (List Byte) :=
  (List.range (padded.length / blockLen v)).map fun j => (padded.drop (j * blockLen v)).take (blockLen v)

/-- `Digest(v, H)`, from the bytes of the state region (R243): its words, read in `STATE_ORDER`, serialized
most significant byte first and cut to `digest_len(v)` bytes. -/
def digestOf (o : ByteOrder) (v : Variant) (region : List Byte) : List Byte :=
  let w := familyWordBits (familyOf v)
  (regionBytes .BE (wordsOf o w (stateLen v / (w / 8)) region)).take (digestLen v)

/-- The state region's bytes after a whole message: the initial state, then the routine once for each block of
the padded message, in order (R166, R242). -/
def hashRegion (o : ByteOrder) (v : Variant) (msg : List Byte) : List Byte :=
  (blocksOf v (pad v msg)).foldl (routineBytes o (familyOf v)) (ivBytes o v)

/-- The digest of a message (R242, R243). -/
def hashOf (v : Variant) (msg : List Byte) : List Byte := digestOf .BE v (hashRegion .BE v msg)

/-! ## The host's accesses (R89, R90) -/

/-- `WR <reg>, <imm32>`. -/
def wrReg (base : Addr) (r : Reg) (v : Word) : HostEvent := .write .w32 (base + BitVec.ofNat 64 (regOffset r)) v

/-- `RD <reg>`. -/
def rdReg (base : Addr) (r : Reg) : HostEvent := .read .w32 (base + BitVec.ofNat 64 (regOffset r))

/-- `CMD <imm32>`: a raw command word, which may be illegal. -/
def cmdWord (base : Addr) (c : Word) : HostEvent := wrReg base .CMD c

/-- A command in its assembler form: one write of its word to CMD. -/
def cmd (base : Addr) (i : Instr) : HostEvent := cmdWord base (encode i)

/-- `SETSTATE a` (R90). -/
def setStateEvents (base a : Addr) : List HostEvent :=
  [wrReg base .STATE_ADDR_LO (lowHalf a), wrReg base .STATE_ADDR_HI (highHalf a)]

/-- `SETBLOCK a` (R90). -/
def setBlockEvents (base a : Addr) : List HostEvent :=
  [wrReg base .BLOCK_ADDR_LO (lowHalf a), wrReg base .BLOCK_ADDR_HI (highHalf a)]

/-- `BIND v`, that is `ENGREF v, GENERIC` (R90). -/
def bindEvent (base : Addr) (v : Variant) : HostEvent := cmd base (.engref (variantCode v) implGeneric)

/-- One pass of the session's loop: the block is stored at `b`, BLOCK_ADDR is set and COMPRESS runs (R242). -/
def blockEvents (base b : Addr) (block : List Byte) : List HostEvent :=
  .store b block :: (setBlockEvents base b ++ [cmd base .compress])

/-- The loop of R242 over the blocks from number `j` on; block `j` is stored at `at j`. -/
def loopEvents (base : Addr) (blockAt : Nat → Addr) : Nat → List (List Byte) → List HostEvent
  | _, [] => []
  | j, b :: bs => blockEvents base (blockAt j) b ++ loopEvents base blockAt (j + 1) bs

/-- The session sequence of R242 for a message, with the state region at `st` and block `j` at `blockAt j`. -/
def session (base : Addr) (v : Variant) (msg : List Byte) (st : Addr) (blockAt : Nat → Addr) : List HostEvent :=
  setStateEvents base st ++ [cmd base (.ldiv (variantCode v)), bindEvent base v]
    ++ loopEvents base blockAt 0 (blocksOf v (pad v msg))

/-! ## Notation (R82, R83, R89) -/

/-- The mnemonic of an operation (R84). -/
def mnemonic : Op → String
  | .QBLK => "QBLK"
  | .QSTL => "QSTL"
  | .QDGL => "QDGL"
  | .QPDL => "QPDL"
  | .LDIV => "LDIV"
  | .FAST => "FAST"
  | .FASTRT => "FASTRT"
  | .AVAIL => "AVAIL"
  | .ENGNEW => "ENGNEW"
  | .ENGREF => "ENGREF"
  | .COMPRESS => "COMPRESS"

/-- The assembler token of a variant (R82). -/
def variantToken : Variant → String
  | .sha1 => "SHA1"
  | .sha224 => "SHA224"
  | .sha256 => "SHA256"
  | .sha384 => "SHA384"
  | .sha512 => "SHA512"
  | .sha512t224 => "SHA512_224"
  | .sha512t256 => "SHA512_256"

/-- A variant operand: its token, or `#n` where the code names no variant (R89). -/
def variantOperand (var : BitVec 3) : String :=
  match variantOfCode? var with
  | some v => variantToken v
  | none => "#" ++ toString var.toNat

/-- An implementation operand: GENERIC, or `#n` (R83, R89). -/
def implOperand (impl : BitVec 4) : String :=
  if impl = implGeneric then "GENERIC" else "#" ++ toString impl.toNat

/-- The operands of a command, variant before implementation (R89). -/
def operandsText (i : Instr) : List String :=
  (if usesVar (opOf i) then [variantOperand (varOf i)] else [])
    ++ (if usesImpl (opOf i) then [implOperand (implOf i)] else [])

/-- A command as this spec writes it: its mnemonic, then its operands separated by commas (R89). -/
def asmText (i : Instr) : String :=
  match operandsText i with
  | [] => mnemonic (opOf i)
  | ops => mnemonic (opOf i) ++ " " ++ String.intercalate ", " ops

end Sys2Proof.Machine
end

