-- ==== Sys2Proof/Safety.lean ====
section
/-! DEFINITION. What counts as a good state and a good end of a run (spec/10_state.md R26, R28, R31, R32 and R36,
spec/70_reset_and_hazards.md R298). -/

namespace Sys2Proof.Machine

/-- STATUS holds a legal value: 0, or a recorded fault (R26). -/
abbrev statusLegal (w : Word) : Prop := w = 0 ∨ ∃ f ∈ allFaultCodes, w = statusWord f

/-- ENG holds a legal value: unbound, or one of the bindings of this build (R28). -/
abbrev engLegal (w : Word) : Prop := w = 0 ∨ ∃ f ∈ [Family.F0, Family.F1, Family.F2], w = engWord implGeneric f

/-- RESULT holds the reset value or a value some command writes there (R27, R101, R141 to R143, R163). -/
abbrev resultLegal (w : Word) : Prop := w ∈ ([0, 1, 2, 8, 16, 20, 28, 32, 48, 64, 128] : List Word)

/-- The registers of one instance are as some run from reset can leave them: legal values (R26, R28), FCMD and
FADDR zero until a fault is recorded (R31, R32), and FADDR zero for every fault but BUS_ERROR (R32). -/
abbrev Block.Legal (b : Block) : Prop :=
  statusLegal b.status ∧ engLegal b.eng ∧ resultLegal b.result
    ∧ (b.status = 0 → b.fcmd = 0) ∧ (b.status ≠ statusWord .busError → b.faddr = 0)

/-- The invariant of every step: memory in its canonical form and every instance's registers legal. -/
abbrev State.Inv (s : State) : Prop := s.mem.wf = true ∧ s.blk.Legal ∧ ∀ b ∈ s.others, b.Legal

/-- `k` steps, stopping at the first fault or refusal. -/
def runSteps : Nat → State → Answer
  | 0, s => .next s
  | k + 1, s =>
    match step s with
    | .next t => runSteps k t
    | .fault f => .fault f
    | .refused r => .refused r

/-- A run that ends here is a successful run (R298): no instance has STATUS.FAULT = 1. R298 speaks of one STATUS;
that with several instances every one of them counts is the model's choice (log entry 22). -/
def State.successful (s : State) : Bool := (s.blk :: s.others).all fun b => !b.faulted

end Sys2Proof.Machine
end

