-- ==== Sys2Proof/Certificates/Slice0/Obligations.lean ====
section
/-! DEFINITION. The statements about this model, for the provers. Each docstring names the rules of spec/ that the
statement formalises. -/

open Sys2Proof Sys2Proof.Machine

/-! ## Words used by several statements -/

namespace Sys2Proof.Claims

/-- Fault entry, spelled out (R262): STATUS, FCMD and FADDR are written and nothing else changes. -/
def faultState (s : State) (status c : Word) (faddr : Addr) : State :=
  { s with blk := { s.blk with status := status, fcmd := c, faddr := faddr } }

/-- The encoding and the ILLEGAL_CMD fault of one command: of the words with its OP, written to CMD of an unfaulted
block, those outside its row of R85 fault ILLEGAL_CMD (STATUS = 0x00000101) and those of the row run it. -/
def rowOf (o : Op) (op : BitVec 8) (mat mask : Word) : Prop :=
  ∀ (c : Word) (s : State), s.blk.faulted = false → c.extractLsb' 0 8 = op →
    (c &&& mask ≠ mat → runCommand c s = .next (faultState s 0x00000101 c 0))
    ∧ (c &&& mask = mat → ∃ i, encode i = c ∧ opOf i = o ∧ runCommand c s = exec i s)

/-- The table of R85: the operation, its match and its mask. -/
def opcodeRows : List (Op × Word × Word) :=
  [(.QBLK, 0x00000001, 0xFFFFF8FF), (.QSTL, 0x00000002, 0xFFFFF8FF), (.QDGL, 0x00000003, 0xFFFFF8FF),
    (.QPDL, 0x00000004, 0xFFFFF8FF), (.LDIV, 0x00000005, 0xFFFFF8FF), (.FAST, 0x00000006, 0xFFFFFFFF),
    (.FASTRT, 0x00000007, 0xFFFFFFFF), (.AVAIL, 0x00000008, 0xFFFF0FFF), (.ENGNEW, 0x00000009, 0xFFFF08FF),
    (.ENGREF, 0x0000000A, 0xFFFF08FF), (.COMPRESS, 0x0000000B, 0xFFFFFFFF)]

/-- `addr` is the address of the register at `offset` in the window of an instance whose base is 64-byte
aligned, and the accessed instance is that one. -/
def reaches (s t : State) (addr : Addr) (offset : Nat) : Prop :=
  s.select addr = some t ∧ t.blk.base.toNat % 64 = 0 ∧ addr.toNat = t.blk.base.toNat + offset

/-- The address that an input names an instance by; none for the accesses to host memory. -/
def addressed : HostEvent → Option Addr
  | .write _ a _ => some a
  | .read _ a => some a
  | .store _ _ => none
  | .load _ _ => none
  | .reset a => some a
  | .racing a _ _ => some a
  | .resetDuring a _ => some a

/-- What a host read returns at each defined offset of R20 (R25: CMD reads as 0). -/
def readTable (b : Block) : List (Nat × Reg × Word) :=
  [(0x00, .CMD, 0), (0x04, .STATUS, b.status), (0x08, .RESULT, b.result), (0x0C, .ENG, b.eng),
    (0x10, .STATE_ADDR_LO, b.stateAddr.extractLsb' 0 32), (0x14, .STATE_ADDR_HI, b.stateAddr.extractLsb' 32 32),
    (0x18, .BLOCK_ADDR_LO, b.blockAddr.extractLsb' 0 32), (0x1C, .BLOCK_ADDR_HI, b.blockAddr.extractLsb' 32 32),
    (0x20, .FCMD, b.fcmd), (0x28, .FADDR_LO, b.faddr.extractLsb' 0 32), (0x2C, .FADDR_HI, b.faddr.extractLsb' 32 32)]

end Sys2Proof.Claims

open Sys2Proof.Claims

/-! ## Encoding -/

/-- R80, R81, R84, R85: a word decodes to a command exactly when it is that command's word, whatever its fields
hold. So decoding an encoded command gives it back, and no bit of a word is dropped. -/
def Obligations.CommandAndWordAgree : Prop := ∀ (c : Word) (i : Instr), decode c = .ok i ↔ encode i = c

/-- R85: the match and mask table. A word selects a row when `c & mask = match`, the decoder reads that row's
command from it with the fields the command uses, and no two rows match the same word. -/
def Obligations.RowsOfTheOpcodeTable : Prop :=
  (∀ row ∈ opcodeRows, ∀ c : Word,
      (c &&& row.2.2 = row.2.1 ↔ ∃ i, decode c = .ok i ∧ opOf i = row.1)
      ∧ ∀ i, decode c = .ok i → opOf i = row.1 →
          varOf i = (if usesVar row.1 then c.extractLsb' 8 3 else 0)
            ∧ implOf i = (if usesImpl row.1 then c.extractLsb' 12 4 else 0))
  ∧ ∀ row ∈ opcodeRows, ∀ row' ∈ opcodeRows, ∀ c : Word,
      c &&& row.2.2 = row.2.1 → c &&& row'.2.2 = row'.2.1 → row = row'

/-- A few words written out from R85 and the examples of the commands' rules, one for each command. -/
def Obligations.WrittenWordsDecode : Prop :=
  ∀ p ∈ ([(0x00000301, .qblk 3), (0x00000002, .qstl 0), (0x00000503, .qdgl 5), (0x00000204, .qpdl 2),
      (0x00000605, .ldiv 6), (0x00000006, .fast), (0x00000007, .fastrt), (0x00001008, .avail 1),
      (0x00000109, .engnew 1 0), (0x0000060A, .engref 6 0), (0x0000170A, .engref 7 1),
      (0x0000000B, .compress)] : List (Word × Instr)), decode p.1 = .ok p.2

/-- R86: the checks of a word written to CMD of an unfaulted block, in their order, and the run of the command
that passes them all: it matches exactly one row of R85 and raises no decode fault of its own. A faulted block
discards the word. -/
def Obligations.CommandWordChecksInOrder : Prop :=
  (∀ (c : Word) (s : State), s.blk.faulted = true → runCommand c s = .next s)
  ∧ ∀ (c : Word) (s : State), s.blk.faulted = false →
    ((c.extractLsb' 0 8 < 0x01 ∨ 0x0B < c.extractLsb' 0 8) → runCommand c s = .next (faultState s 0x00000101 c 0))
    ∧ ∀ o, c.extractLsb' 0 8 = opCode o →
      ((c.extractLsb' 16 16 ≠ 0 ∨ c.extractLsb' 11 1 ≠ 0) → runCommand c s = .next (faultState s 0x00000101 c 0))
      ∧ (usesVar o = false → c.extractLsb' 8 3 ≠ 0 → runCommand c s = .next (faultState s 0x00000101 c 0))
      ∧ (usesImpl o = false → c.extractLsb' 12 4 ≠ 0 → runCommand c s = .next (faultState s 0x00000101 c 0))
      ∧ (c.extractLsb' 16 16 = 0 → c.extractLsb' 11 1 = 0 → (usesVar o = false → c.extractLsb' 8 3 = 0) →
          (usesImpl o = false → c.extractLsb' 12 4 = 0) →
          (usesVar o = true → c.extractLsb' 8 3 = 7 → runCommand c s = .next (faultState s 0x00000201 c 0))
          ∧ ((usesVar o = true → c.extractLsb' 8 3 ≠ 7) → usesImpl o = true → c.extractLsb' 12 4 ≠ 0 →
              runCommand c s = .next (faultState s 0x00000301 c 0))
          ∧ ((usesVar o = true → c.extractLsb' 8 3 ≠ 7) → (usesImpl o = true → c.extractLsb' 12 4 = 0) →
              (∀ row ∈ opcodeRows, (c &&& row.2.2 = row.2.1 ↔ row.1 = o))
              ∧ ∃ i, i.wf = true ∧ encode i = c ∧ opOf i = o ∧ runCommand c s = exec i s
                  ∧ ∀ t, exec i s = .next t → t.blk.faulted = true →
                      t.blk.fcode ∉ ([0x01, 0x02, 0x03] : List (BitVec 8))))

/-! ## Steps -/

/-- R21, R25, R86: a 32-bit host write to CMD of an unfaulted instance, of a word that decodes to `i`, runs `i`
on the machine with that instance addressed and that access taken from the host's list. -/
def Obligations.StepRunsTheDecodedCommand : Prop :=
  ∀ (s t : State) (a : Addr) (c : Word) (rest : List HostEvent) (i : Instr),
    s.host = .write .w32 a c :: rest → reaches { s with host := rest } t a 0x00 → t.blk.faulted = false →
    decode c = .ok i → step s = exec i t

/-- R266: a faulted instance discards a command word, takes host writes to the address registers, and answers
reads at every defined offset. -/
def Obligations.FaultedInstanceDiscardsCommands : Prop :=
  ∀ (s t : State) (a : Addr) (rest : List HostEvent), t.blk.faulted = true →
    (∀ c, s.host = .write .w32 a c :: rest → reaches { s with host := rest } t a 0x00 → step s = .next t)
    ∧ (∀ v, s.host = .write .w32 a v :: rest → reaches { s with host := rest } t a 0x10 →
        step s = .next { t with blk := { t.blk with stateAddr := t.blk.stateAddr.extractLsb' 32 32 ++ v } })
    ∧ (∀ v, s.host = .write .w32 a v :: rest → reaches { s with host := rest } t a 0x14 →
        step s = .next { t with blk := { t.blk with stateAddr := v ++ t.blk.stateAddr.extractLsb' 0 32 } })
    ∧ (∀ v, s.host = .write .w32 a v :: rest → reaches { s with host := rest } t a 0x18 →
        step s = .next { t with blk := { t.blk with blockAddr := t.blk.blockAddr.extractLsb' 32 32 ++ v } })
    ∧ (∀ v, s.host = .write .w32 a v :: rest → reaches { s with host := rest } t a 0x1C →
        step s = .next { t with blk := { t.blk with blockAddr := v ++ t.blk.blockAddr.extractLsb' 0 32 } })
    ∧ ∀ p ∈ readTable t.blk, s.host = .read .w32 a :: rest → reaches { s with host := rest } t a p.1 →
        step s = .next { t with observed := .register p.2.1 p.2.2 :: t.observed }

/-- R36, R266, R267: STATUS.FAULT is sticky. Whatever step is taken, an instance that is faulted is still there
afterwards with the same STATUS, FCMD, FADDR, RESULT and ENG, unless the step was a reset. -/
def Obligations.FaultIsStickyUntilReset : Prop :=
  ∀ (s t : State), step s = .next t →
    (∀ a rest, s.host ≠ .reset a :: rest) → (∀ a c rest, s.host ≠ .resetDuring a c :: rest) →
    ∀ b ∈ s.blk :: s.others, b.faulted = true →
      ∃ b' ∈ t.blk :: t.others, b'.base = b.base ∧ b'.status = b.status ∧ b'.fcmd = b.fcmd ∧ b'.faddr = b.faddr
        ∧ b'.result = b.result ∧ b'.eng = b.eng

/-- R20, R38, R271: a step whose input names an address acts on one instance whose window holds that address, and
all the others keep every register; a step that accesses host memory, or has no input, leaves every register of
every instance. The platform's parameters stand. That a reset is an input for one instance is the model's choice
(log entry 14). -/
def Obligations.OtherInstancesKeepTheirRegisters : Prop :=
  ∀ (s t : State), step s = .next t →
    t.admitted = s.admitted ∧ t.stateOrder = s.stateOrder ∧ t.host = s.host.tail
    ∧ (s.host.head?.bind addressed = none → t.blk = s.blk ∧ t.others = s.others)
    ∧ ∀ a : Addr, s.host.head?.bind addressed = some a →
        ∃ b : Block, b.base.toNat ≤ a.toNat ∧ a.toNat < b.base.toNat + 64
          ∧ (b :: t.others).Perm (s.blk :: s.others) ∧ t.blk.base = b.base

/-- R273, R291: with nothing asked of it the block is idle and keeps its whole state. -/
def Obligations.IdleBlockKeepsItsState : Prop := ∀ s : State, s.host = [] → step s = .next s

/-- R26, R28, R31, R32, R36: a step from a state with canonical memory and legal registers in every instance
leaves such a state. -/
def Obligations.InvariantKeptByEveryStep : Prop := ∀ s t : State, s.Inv → step s = .next t → t.Inv

/-- R290: the state after reset satisfies the invariant. The platform parameters of that state are the model's
choice (log entries 2 to 5); the invariant holds whatever they are. -/
def Obligations.ResetStateIsLegal : Prop :=
  State.reset.Inv
  ∧ ∀ (base : Addr) (admitted : List Region) (o : ByteOrder),
      { State.reset with blk := Block.atReset base, admitted := admitted, stateOrder := o }.Inv

/-! ## Faults -/

/-- R262: fault entry. STATUS takes FAULT = 1 and the code of R260, FCMD the command word, FADDR the address, and
nothing else changes. -/
def Obligations.FaultEntryWritesThreeRegisters : Prop :=
  ∀ (s : State) (c : Word) (x : Addr),
    ∀ p ∈ ([(.illegalCmd, 0x01), (.reservedVariant, 0x02), (.reservedImpl, 0x03), (.engineUnbound, 0x04),
        (.unavailableImpl, 0x05), (.busError, 0x06), (.overlap, 0x07)] : List (FaultCode × BitVec 8)),
      s.raiseFault c p.1 x = faultState s (0#16 ++ p.2 ++ 0#7 ++ 1#1) c x
      ∧ (s.raiseFault c p.1 x).blk.faulted = true ∧ (s.raiseFault c p.1 x).blk.fcode = p.2

/-- R263: faults are precise. A command that faults changes nothing but STATUS, FCMD and FADDR, records its own
word, and reads and writes no memory. -/
def Obligations.FaultingCommandLeavesNoPartialEffect : Prop :=
  ∀ (i : Instr) (s t : State), s.blk.faulted = false → exec i s = .next t → t.blk.faulted = true →
    t = faultState s t.blk.status (encode i) t.blk.faddr ∧ memReads i s = [] ∧ memWrites i s = []

/-- R164, R264: the checks of COMPRESS, in their order, each with the fault it raises. -/
def Obligations.CompressChecksInOrder : Prop :=
  ∀ s : State,
    (s.blk.bound = false → exec .compress s = .next (faultState s 0x00000401 0x0000000B 0))
    ∧ (s.blk.bound = true → avail s.blk.engImpl = false →
        exec .compress s = .next (faultState s 0x00000501 0x0000000B 0))
    ∧ (s.blk.bound = true → avail s.blk.engImpl = true → ∀ f, s.blk.engFamily = familyCode f →
        (s.admits s.blk.stateAddr (familyStateLen f) = false →
          exec .compress s = .next (faultState s 0x00000601 0x0000000B s.blk.stateAddr))
        ∧ (s.admits s.blk.stateAddr (familyStateLen f) = true → s.admits s.blk.blockAddr (familyBlockLen f) = false →
          exec .compress s = .next (faultState s 0x00000601 0x0000000B s.blk.blockAddr))
        ∧ (s.admits s.blk.stateAddr (familyStateLen f) = true → s.admits s.blk.blockAddr (familyBlockLen f) = true →
          s.blk.stateAddr.toNat < s.blk.blockAddr.toNat + familyBlockLen f →
          s.blk.blockAddr.toNat < s.blk.stateAddr.toNat + familyStateLen f →
          exec .compress s = .next (faultState s 0x00000701 0x0000000B 0)))

/-- R28, R161: ENG.FAMILY = 3 is never written and has no routine. In a state that holds it, which no run reaches
(`InvariantKeptByEveryStep`), COMPRESS stops. That it stops is the model's choice (log entry 9). -/
def Obligations.CompressStopsOnReservedFamily : Prop :=
  (∀ s : State, s.blk.bound = true → avail s.blk.engImpl = true → s.blk.engFamily = 3 →
    exec .compress s = .fault .familyReserved)
  ∧ ∀ b : Block, b.Legal → ¬ (b.bound = true ∧ b.engFamily = 3)

/-! ## What the commands do -/

/-- R101 to R105: QBLK, QSTL, QDGL and QPDL write the length of the table into RESULT and nothing else; VAR = 7
faults RESERVED_VARIANT; their other words fault ILLEGAL_CMD. -/
def Obligations.QueriesWriteTheTableLengths : Prop :=
  rowOf .QBLK 0x01 0x00000001 0xFFFFF8FF ∧ rowOf .QSTL 0x02 0x00000002 0xFFFFF8FF
  ∧ rowOf .QDGL 0x03 0x00000003 0xFFFFF8FF ∧ rowOf .QPDL 0x04 0x00000004 0xFFFFF8FF
  ∧ (∀ s : State, ∀ row ∈ ([(0, 64, 20, 20, 8), (1, 64, 32, 28, 8), (2, 64, 32, 32, 8), (3, 128, 64, 48, 16),
        (4, 128, 64, 64, 16), (5, 128, 64, 28, 16), (6, 128, 64, 32, 16)] :
        List (BitVec 3 × Word × Word × Word × Word)),
      exec (.qblk row.1) s = .next { s with blk := { s.blk with result := row.2.1 } }
      ∧ exec (.qstl row.1) s = .next { s with blk := { s.blk with result := row.2.2.1 } }
      ∧ exec (.qdgl row.1) s = .next { s with blk := { s.blk with result := row.2.2.2.1 } }
      ∧ exec (.qpdl row.1) s = .next { s with blk := { s.blk with result := row.2.2.2.2 } })
  ∧ ∀ s : State, exec (.qblk 7) s = .next (faultState s 0x00000201 0x00000701 0)
      ∧ exec (.qstl 7) s = .next (faultState s 0x00000201 0x00000702 0)
      ∧ exec (.qdgl 7) s = .next (faultState s 0x00000201 0x00000703 0)
      ∧ exec (.qpdl 7) s = .next (faultState s 0x00000201 0x00000704 0)

/-- R106: the laws of the variant table. -/
def Obligations.VariantTableLaws : Prop :=
  ∀ v : Variant, digestLen v ≤ stateLen v
    ∧ (digestLen v = stateLen v ↔ v = .sha1 ∨ v = .sha256 ∨ v = .sha512)
    ∧ (digestLen v < stateLen v ↔ v = .sha224 ∨ v = .sha384 ∨ v = .sha512t224 ∨ v = .sha512t256)
    ∧ (blockLen v = 64 ∨ blockLen v = 128) ∧ (padLen v = 8 ∨ padLen v = 16)
    ∧ (3 ≤ (variantCode v).toNat → blockLen v = 128 ∧ padLen v = 16)
    ∧ ((variantCode v).toNat ≤ 2 → blockLen v = 64 ∧ padLen v = 8)

/-- R120: LDIV with an admitted state region writes the initial state there in `STATE_ORDER` and nothing else;
with a region that is not admitted it faults BUS_ERROR; VAR = 7 faults RESERVED_VARIANT; its other words fault
ILLEGAL_CMD. -/
def Obligations.LdivWritesTheInitialState : Prop :=
  rowOf .LDIV 0x05 0x00000005 0xFFFFF8FF
  ∧ (∀ (v : Variant) (s : State), s.mem.wf = true → s.admits s.blk.stateAddr (stateLen v) = true →
      ∃ t : State, exec (.ldiv (variantCode v)) s = .next t ∧ t = { s with mem := t.mem }
        ∧ readBytes t.mem s.blk.stateAddr.toNat (stateLen v)
            = regionBytes s.stateOrder
                ((ivWords v).map (BitVec.ofNat (if (variantCode v).toNat ≤ 2 then 32 else 64)))
        ∧ ∀ a, a < s.blk.stateAddr.toNat ∨ s.blk.stateAddr.toNat + stateLen v ≤ a →
            readByte t.mem a = readByte s.mem a)
  ∧ (∀ (v : Variant) (s : State), s.admits s.blk.stateAddr (stateLen v) = false →
      exec (.ldiv (variantCode v)) s
        = .next (faultState s 0x00000601 (encode (.ldiv (variantCode v))) s.blk.stateAddr))
  ∧ ∀ s : State, exec (.ldiv 7) s = .next (faultState s 0x00000201 0x00000705 0)

/-- R122: seven distinct initial vectors, three of 32-bit words and four of 64-bit words; each fills the state
region of its variant (R121). -/
def Obligations.SevenDistinctInitialVectors : Prop :=
  (∀ v v' : Variant, ivWords v = ivWords v' → v = v')
  ∧ ∀ v : Variant, (ivWords v).length * (if v = .sha1 ∨ v = .sha224 ∨ v = .sha256 then 4 else 8) = stateLen v
      ∧ ∀ x ∈ ivWords v, x < 2 ^ (if v = .sha1 ∨ v = .sha224 ∨ v = .sha256 then 32 else 64)

/-- R121, R124: how the initial vectors come about: SHA-512's and SHA-384's words are the first 64 bits of the
fractional parts of the square roots of the first 16 primes, SHA-256's and SHA-224's are halves of them, SHA-1's
are the standard's, and SHA-512/t's are the SHA-512 state of the text "SHA-512/t" under the exclusive-or of
SHA-512's vector with A5 bytes. -/
def Obligations.InitialVectorsFollowTheirDerivation : Prop :=
  ivWords .sha1 = [0x67452301, 0xEFCDAB89, 0x98BADCFE, 0x10325476, 0xC3D2E1F0]
  ∧ (ivWords .sha512).length = 8 ∧ (ivWords .sha384).length = 8
  ∧ (∀ e ∈ List.zip [2, 3, 5, 7, 11, 13, 17, 19, 23, 29, 31, 37, 41, 43, 47, 53] (ivWords .sha512 ++ ivWords .sha384),
      ∃ n < 8, (n * 2 ^ 64 + e.2) ^ 2 ≤ e.1 * 2 ^ 128 ∧ e.1 * 2 ^ 128 < (n * 2 ^ 64 + e.2 + 1) ^ 2)
  ∧ ivWords .sha256 = (ivWords .sha512).map (· / 2 ^ 32) ∧ ivWords .sha224 = (ivWords .sha384).map (· % 2 ^ 32)
  ∧ ∀ e ∈ ([(.sha512t224, [0x53, 0x48, 0x41, 0x2D, 0x35, 0x31, 0x32, 0x2F, 0x32, 0x32, 0x34]),
        (.sha512t256, [0x53, 0x48, 0x41, 0x2D, 0x35, 0x31, 0x32, 0x2F, 0x32, 0x35, 0x36])] : List (Variant × List Byte)),
      (ivWords e.1).map (BitVec.ofNat 64)
        = sha512Compress ((ivWords .sha512).map fun x => BitVec.ofNat 64 x ^^^ 0xA5A5A5A5A5A5A5A5)
            (wordsOf .BE 64 16 (pad .sha512 e.2))

/-- R141, R142, R143: FAST and FASTRT write 0 into RESULT, AVAIL writes the availability of an implemented code
there, and none writes anything else; AVAIL of a code outside `IMPL_SET` faults RESERVED_IMPL; their other words
fault ILLEGAL_CMD. -/
def Obligations.SelectorQueriesAnswerGeneric : Prop :=
  rowOf .FAST 0x06 0x00000006 0xFFFFFFFF ∧ rowOf .FASTRT 0x07 0x00000007 0xFFFFFFFF
  ∧ rowOf .AVAIL 0x08 0x00000008 0xFFFF0FFF
  ∧ ∀ s : State, exec .fast s = .next { s with blk := { s.blk with result := 0 } }
      ∧ exec .fastrt s = .next { s with blk := { s.blk with result := 0 } }
      ∧ exec (.avail 0) s = .next { s with blk := { s.blk with result := 1 } }
      ∧ ∀ i : BitVec 4, i ≠ 0 → exec (.avail i) s = .next (faultState s 0x00000301 (encode (.avail i)) 0)

/-- R145: the implementation FASTRT names is implemented, AVAIL answers 1 for it, and no query faults on an
implemented code. -/
def Obligations.FastrtResultIsAvailable : Prop :=
  ∀ s : State, ∃ t u : State, ∃ i : BitVec 4, exec .fastrt s = .next t ∧ t.blk.result = i.setWidth 32
    ∧ i ∈ implSet ∧ exec (.avail i) t = .next u ∧ u.blk.result = 1

/-- R160, R162: ENGNEW binds the variant's family and the implementation and writes nothing else; its faults. -/
def Obligations.EngnewBindsTheFamily : Prop :=
  rowOf .ENGNEW 0x09 0x00000009 0xFFFF08FF
  ∧ (∀ s : State, ∀ row ∈ ([(0, 0x80000000), (1, 0x80000001), (2, 0x80000001), (3, 0x80000002), (4, 0x80000002),
        (5, 0x80000002), (6, 0x80000002)] : List (BitVec 3 × Word)),
      exec (.engnew row.1 0) s = .next { s with blk := { s.blk with eng := row.2 } })
  ∧ (∀ (s : State) (i : BitVec 4),
      exec (.engnew 7 i) s = .next (faultState s 0x00000201 (encode (.engnew 7 i)) 0))
  ∧ ∀ (s : State) (v : BitVec 3) (i : BitVec 4), v ≠ 7 → i ≠ 0 →
      exec (.engnew v i) s = .next (faultState s 0x00000301 (encode (.engnew v i)) 0)

/-- R160, R163: ENGREF binds as ENGNEW does and writes the singleton id `3 * i + Family(v)` into RESULT; its
faults. -/
def Obligations.EngrefBindsAndNamesTheSingleton : Prop :=
  rowOf .ENGREF 0x0A 0x0000000A 0xFFFF08FF
  ∧ (∀ s : State, ∀ row ∈ ([(0, 0x80000000, 0), (1, 0x80000001, 1), (2, 0x80000001, 1), (3, 0x80000002, 2),
        (4, 0x80000002, 2), (5, 0x80000002, 2), (6, 0x80000002, 2)] : List (BitVec 3 × Word × Word)),
      exec (.engref row.1 0) s = .next { s with blk := { s.blk with eng := row.2.1, result := row.2.2 } })
  ∧ (∀ (s : State) (i : BitVec 4),
      exec (.engref 7 i) s = .next (faultState s 0x00000201 (encode (.engref 7 i)) 0))
  ∧ ∀ (s : State) (v : BitVec 3) (i : BitVec 4), v ≠ 7 → i ≠ 0 →
      exec (.engref v i) s = .next (faultState s 0x00000301 (encode (.engref v i)) 0)

/-- R55, R56, R161, R164: COMPRESS with every check passed completes. The state region takes the bytes of the bound
routine's words, in `STATE_ORDER`; every other byte, every register and every parameter is unchanged. -/
def Obligations.CompressRunsTheBoundRoutine : Prop :=
  ∀ (s : State) (f : Family), s.mem.wf = true →
    s.blk.bound = true → avail s.blk.engImpl = true → s.blk.engFamily = familyCode f →
    s.admits s.blk.stateAddr (familyStateLen f) = true → s.admits s.blk.blockAddr (familyBlockLen f) = true →
    (s.blk.blockAddr.toNat + familyBlockLen f ≤ s.blk.stateAddr.toNat
      ∨ s.blk.stateAddr.toNat + familyStateLen f ≤ s.blk.blockAddr.toNat) →
    ∃ t : State, exec .compress s = .next t ∧ t = { s with mem := t.mem }
      ∧ readBytes t.mem s.blk.stateAddr.toNat (familyStateLen f)
          = (match f with
            | .F0 => regionBytes s.stateOrder (sha1Compress
                (wordsOf s.stateOrder 32 5 (readBytes s.mem s.blk.stateAddr.toNat 20))
                (wordsOf .BE 32 16 (readBytes s.mem s.blk.blockAddr.toNat 64)))
            | .F1 => regionBytes s.stateOrder (sha256Compress
                (wordsOf s.stateOrder 32 8 (readBytes s.mem s.blk.stateAddr.toNat 32))
                (wordsOf .BE 32 16 (readBytes s.mem s.blk.blockAddr.toNat 64)))
            | .F2 => regionBytes s.stateOrder (sha512Compress
                (wordsOf s.stateOrder 64 8 (readBytes s.mem s.blk.stateAddr.toNat 64))
                (wordsOf .BE 64 16 (readBytes s.mem s.blk.blockAddr.toNat 128))))
      ∧ ∀ a, a < s.blk.stateAddr.toNat ∨ s.blk.stateAddr.toNat + familyStateLen f ≤ a →
          readByte t.mem a = readByte s.mem a

/-- R27, R28, R29, R30, R36, R50: which registers a command writes. No command writes the base, STATE_ADDR,
BLOCK_ADDR, another instance or a parameter; STATUS, FCMD and FADDR change only by a fault; RESULT only by the
queries, the selector and ENGREF; ENG only by ENGNEW and ENGREF; memory only by LDIV and COMPRESS. -/
def Obligations.RegistersEachCommandLeaves : Prop :=
  ∀ (i : Instr) (s t : State), exec i s = .next t →
    t.blk.base = s.blk.base ∧ t.blk.stateAddr = s.blk.stateAddr ∧ t.blk.blockAddr = s.blk.blockAddr
    ∧ t.others = s.others ∧ t.admitted = s.admitted ∧ t.stateOrder = s.stateOrder ∧ t.host = s.host
    ∧ t.observed = s.observed ∧ t.draws = s.draws
    ∧ ((t.blk.status = s.blk.status ∧ t.blk.fcmd = s.blk.fcmd ∧ t.blk.faddr = s.blk.faddr) ∨ t.blk.faulted = true)
    ∧ (opOf i ∈ ([.LDIV, .ENGNEW, .COMPRESS] : List Op) → t.blk.result = s.blk.result)
    ∧ (opOf i ≠ .ENGNEW → opOf i ≠ .ENGREF → t.blk.eng = s.blk.eng)
    ∧ (opOf i ≠ .LDIV → opOf i ≠ .COMPRESS → t.mem = s.mem)

/-- R50, R120, R164: a command stores to no byte outside the ranges it writes. -/
def Obligations.CommandStoresOnlyToItsRegion : Prop :=
  ∀ (i : Instr) (s t : State) (a : Nat), exec i s = .next t → spansHave (memWrites i s) a = false →
    readByte t.mem a = readByte s.mem a

/-- R61 (the regions do not overlap), R164: the ranges that a running COMPRESS reads and writes, and that it writes
no byte of its block. That it computes from the bytes before its own writes is `CompressRunsTheBoundRoutine`. -/
def Obligations.CompressRegionsShareNoByte : Prop :=
  ∀ (s : State) (f : Family), compressCheck s = .run f →
    memReads .compress s = [s.blockSpan f, s.stateSpan f] ∧ memWrites .compress s = [s.stateSpan f]
    ∧ ∀ a, ¬ ((s.blockSpan f).has a = true ∧ (s.stateSpan f).has a = true)

/-- R165: COMPRESS is a pure function of ENG.FAMILY, the state bytes and the block bytes, on platforms of one
`STATE_ORDER`: two commands that agree on those, and both complete, write the same bytes. -/
def Obligations.CompressIsPure : Prop :=
  ∀ (s s' t t' : State) (f : Family), s.mem.wf = true → s'.mem.wf = true → s.stateOrder = s'.stateOrder →
    s.blk.engFamily = familyCode f → s'.blk.engFamily = familyCode f →
    readBytes s.mem s.blk.stateAddr.toNat (familyStateLen f)
      = readBytes s'.mem s'.blk.stateAddr.toNat (familyStateLen f) →
    readBytes s.mem s.blk.blockAddr.toNat (familyBlockLen f)
      = readBytes s'.mem s'.blk.blockAddr.toNat (familyBlockLen f) →
    s.blk.faulted = false → s'.blk.faulted = false →
    exec .compress s = .next t → exec .compress s' = .next t' → t.blk.faulted = false → t'.blk.faulted = false →
    readBytes t.mem s.blk.stateAddr.toNat (familyStateLen f)
      = readBytes t'.mem s'.blk.stateAddr.toNat (familyStateLen f)

/-! ## The routines -/

/-- R183: the SHA-1 message schedule, 80 words by its recurrence. -/
def Obligations.Sha1ScheduleRecurrence : Prop :=
  ∀ m : List (BitVec 32), m.length = 16 →
    (sha1Schedule m).length = 80 ∧ (∀ t < 16, (sha1Schedule m).getD t 0 = m.getD t 0)
    ∧ ∀ t, 16 ≤ t → t < 80 → (sha1Schedule m).getD t 0
        = ((sha1Schedule m).getD (t - 3) 0 ^^^ (sha1Schedule m).getD (t - 8) 0
            ^^^ (sha1Schedule m).getD (t - 14) 0 ^^^ (sha1Schedule m).getD (t - 16) 0).rotateLeft 1

/-- R181, R182, R184: `SHA1Compress`, its 80 rounds written out with their functions and constants, the schedule
words taken from R183. -/
def Obligations.Sha1CompressByRounds : Prop :=
  ∀ h m : List (BitVec 32), h.length = 5 → m.length = 16 →
    sha1Compress h m =
      (let r := (List.range 80).foldl (fun (s : Work5) t =>
          { a := s.a.rotateLeft 5
              + (if t ≤ 19 then (s.b &&& s.c) ^^^ (~~~s.b &&& s.d)
                else if 40 ≤ t ∧ t ≤ 59 then (s.b &&& s.c) ^^^ (s.b &&& s.d) ^^^ (s.c &&& s.d)
                else s.b ^^^ s.c ^^^ s.d)
              + s.e + ([0x5A827999, 0x6ED9EBA1, 0x8F1BBCDC, 0xCA62C1D6] : List (BitVec 32)).getD (t / 20) 0
              + (sha1Schedule m).getD t 0
            b := s.a
            c := s.b.rotateLeft 30
            d := s.c
            e := s.d })
          (⟨h.getD 0 0, h.getD 1 0, h.getD 2 0, h.getD 3 0, h.getD 4 0⟩ : Work5)
       [h.getD 0 0 + r.a, h.getD 1 0 + r.b, h.getD 2 0 + r.c, h.getD 3 0 + r.d, h.getD 4 0 + r.e])

/-- R202, R203: the SHA-256 message schedule, 64 words by its recurrence. -/
def Obligations.Sha256ScheduleRecurrence : Prop :=
  ∀ m : List (BitVec 32), m.length = 16 →
    (sha256Schedule m).length = 64 ∧ (∀ t < 16, (sha256Schedule m).getD t 0 = m.getD t 0)
    ∧ ∀ t, 16 ≤ t → t < 64 → (sha256Schedule m).getD t 0
        = (let x := (sha256Schedule m).getD (t - 2) 0
           x.rotateRight 17 ^^^ x.rotateRight 19 ^^^ x >>> 10)
          + (sha256Schedule m).getD (t - 7) 0
          + (let y := (sha256Schedule m).getD (t - 15) 0
             y.rotateRight 7 ^^^ y.rotateRight 18 ^^^ y >>> 3)
          + (sha256Schedule m).getD (t - 16) 0

/-- R202, R204: `SHA256Compress`, its 64 rounds written out with their functions, the constants taken from R201
and the schedule words from R203. -/
def Obligations.Sha256CompressByRounds : Prop :=
  ∀ h m : List (BitVec 32), h.length = 8 → m.length = 16 →
    sha256Compress h m =
      (let r := (List.range 64).foldl (fun (s : Work8 32) t =>
          let t1 := s.h + (s.e.rotateRight 6 ^^^ s.e.rotateRight 11 ^^^ s.e.rotateRight 25)
            + ((s.e &&& s.f) ^^^ (~~~s.e &&& s.g)) + k256.getD t 0 + (sha256Schedule m).getD t 0
          let t2 := (s.a.rotateRight 2 ^^^ s.a.rotateRight 13 ^^^ s.a.rotateRight 22)
            + ((s.a &&& s.b) ^^^ (s.a &&& s.c) ^^^ (s.b &&& s.c))
          { a := t1 + t2, b := s.a, c := s.b, d := s.c, e := s.d + t1, f := s.e, g := s.f, h := s.g })
          (⟨h.getD 0 0, h.getD 1 0, h.getD 2 0, h.getD 3 0, h.getD 4 0, h.getD 5 0, h.getD 6 0, h.getD 7 0⟩ :
            Work8 32)
       [h.getD 0 0 + r.a, h.getD 1 0 + r.b, h.getD 2 0 + r.c, h.getD 3 0 + r.d,
        h.getD 4 0 + r.e, h.getD 5 0 + r.f, h.getD 6 0 + r.g, h.getD 7 0 + r.h])

/-- R222, R223: the SHA-512 message schedule, 80 words by its recurrence. -/
def Obligations.Sha512ScheduleRecurrence : Prop :=
  ∀ m : List (BitVec 64), m.length = 16 →
    (sha512Schedule m).length = 80 ∧ (∀ t < 16, (sha512Schedule m).getD t 0 = m.getD t 0)
    ∧ ∀ t, 16 ≤ t → t < 80 → (sha512Schedule m).getD t 0
        = (let x := (sha512Schedule m).getD (t - 2) 0
           x.rotateRight 19 ^^^ x.rotateRight 61 ^^^ x >>> 6)
          + (sha512Schedule m).getD (t - 7) 0
          + (let y := (sha512Schedule m).getD (t - 15) 0
             y.rotateRight 1 ^^^ y.rotateRight 8 ^^^ y >>> 7)
          + (sha512Schedule m).getD (t - 16) 0

/-- R222, R224: `SHA512Compress`, its 80 rounds written out with their functions, the constants taken from R221
and the schedule words from R223. -/
def Obligations.Sha512CompressByRounds : Prop :=
  ∀ h m : List (BitVec 64), h.length = 8 → m.length = 16 →
    sha512Compress h m =
      (let r := (List.range 80).foldl (fun (s : Work8 64) t =>
          let t1 := s.h + (s.e.rotateRight 14 ^^^ s.e.rotateRight 18 ^^^ s.e.rotateRight 41)
            + ((s.e &&& s.f) ^^^ (~~~s.e &&& s.g)) + k512.getD t 0 + (sha512Schedule m).getD t 0
          let t2 := (s.a.rotateRight 28 ^^^ s.a.rotateRight 34 ^^^ s.a.rotateRight 39)
            + ((s.a &&& s.b) ^^^ (s.a &&& s.c) ^^^ (s.b &&& s.c))
          { a := t1 + t2, b := s.a, c := s.b, d := s.c, e := s.d + t1, f := s.e, g := s.f, h := s.g })
          (⟨h.getD 0 0, h.getD 1 0, h.getD 2 0, h.getD 3 0, h.getD 4 0, h.getD 5 0, h.getD 6 0, h.getD 7 0⟩ :
            Work8 64)
       [h.getD 0 0 + r.a, h.getD 1 0 + r.b, h.getD 2 0 + r.c, h.getD 3 0 + r.d,
        h.getD 4 0 + r.e, h.getD 5 0 + r.f, h.getD 6 0 + r.g, h.getD 7 0 + r.h])

/-- R201, R221: 64 and 80 constants; each SHA-512 constant is the first 64 bits of the fractional part of the cube
root of its prime, and the high half of each of the first 64 is the SHA-256 constant. -/
def Obligations.RoundConstantsAreCubeRoots : Prop :=
  k256.length = 64 ∧ k512.length = 80 ∧ (∀ t < 64, (k512.getD t 0).extractLsb' 32 32 = k256.getD t 0)
  ∧ ∀ e ∈ List.zip
      ([2, 3, 5, 7, 11, 13, 17, 19, 23, 29, 31, 37, 41, 43, 47, 53, 59, 61, 67, 71, 73, 79, 83, 89, 97, 101, 103, 107, 109,
          113, 127, 131, 137, 139, 149, 151, 157, 163, 167, 173]
        ++ [179, 181, 191, 193, 197, 199, 211, 223, 227, 229, 233, 239, 241, 251, 257, 263, 269, 271, 277, 281, 283, 293,
          307, 311, 313, 317, 331, 337, 347, 349, 353, 359, 367, 373, 379, 383, 389, 397, 401, 409]) k512,
      ∃ n < 8, (n * 2 ^ 64 + e.2.toNat) ^ 3 ≤ e.1 * 2 ^ 192 ∧ e.1 * 2 ^ 192 < (n * 2 ^ 64 + e.2.toNat + 1) ^ 3

/-! ## Memory, regions and bytes -/

/-- R12: `Bytes_w` and the reading of words are inverse to each other, in either order and width, and byte `j` of
word `i` stands at offset `i*w/8 + j`, least or most significant byte first. -/
def Obligations.WordsAndBytesAreInverse : Prop :=
  ∀ w ∈ [32, 64], ∀ o : ByteOrder,
    (∀ hs : List (BitVec w), wordsOf o w hs.length (regionBytes o hs) = hs)
    ∧ (∀ (n : Nat) (bs : List Byte), bs.length = n * (w / 8) → regionBytes o (wordsOf o w n bs) = bs)
    ∧ ∀ (hs : List (BitVec w)) (i j : Nat), i < hs.length → j < w / 8 →
        (regionBytes o hs).getD (i * (w / 8) + j) 0
          = (hs.getD i 0).extractLsb' (8 * (match o with | .LE => j | .BE => w / 8 - 1 - j)) 8

/-- R51, R52: a region is admitted exactly when it does not pass the top of the address space and each of its
bytes is admitted; a region that touches a window is not. -/
def Obligations.AdmissionOfARegion : Prop :=
  ∀ (s : State) (a : Addr) (n : Nat),
    (s.admits a n = true ↔ a.toNat + n ≤ 2 ^ 64 ∧ ∀ k < n, s.memAdmit (a.toNat + k) = true)
    ∧ ∀ k < n, s.blk.base.toNat ≤ a.toNat + k → a.toNat + k < s.blk.base.toNat + 64 → s.admits a n = false

/-- R62, R66: a host store of bytes outside the windows completes, at admitted and other addresses alike (that it
does at addresses that are not admitted is the model's choice, log entry 11); the bytes are in memory, every other byte and
every register is unchanged, and a host load returns them. -/
def Obligations.HostStoreThenLoad : Prop :=
  ∀ (s : State) (a : Addr) (bs : List Byte) (rest : List HostEvent), s.mem.wf = true →
    a.toNat + bs.length ≤ 2 ^ 64 → (∀ k < bs.length, s.inWindow (a.toNat + k) = false) →
    s.host = .store a bs :: .load a bs.length :: rest →
    ∃ t : State, step s = .next t ∧ t = { s with mem := t.mem, host := .load a bs.length :: rest }
      ∧ (∀ x, x < a.toNat ∨ a.toNat + bs.length ≤ x → readByte t.mem x = readByte s.mem x)
      ∧ step t = .next { t with host := rest, observed := .memory a bs :: t.observed }

/-! ## The register window -/

/-- R22: host accesses to the window of an instance whose base is aligned. One of another size, a misaligned one
and one to a reserved offset are refused; a write to a read-only register has no effect; the registers are the
eleven of R20's table (log entry 8). Where two reasons to refuse apply, that the size is named before the
alignment and the alignment before the offset is the model's choice (log entry 21). -/
def Obligations.HostAccessRules : Prop :=
  ∀ (s t : State) (a : Addr) (off : Nat) (v : Word) (rest : List HostEvent),
    off < 64 → reaches { s with host := rest } t a off →
    (∀ w, w ≠ AccessWidth.w32 →
      (s.host = .write w a v :: rest → step s = .refused .accessWidth)
      ∧ (s.host = .read w a :: rest → step s = .refused .accessWidth))
    ∧ (off % 4 ≠ 0 →
      (s.host = .write .w32 a v :: rest → step s = .refused .accessMisaligned)
      ∧ (s.host = .read .w32 a :: rest → step s = .refused .accessMisaligned))
    ∧ (off ∈ [0x24, 0x30, 0x34, 0x38, 0x3C] →
      (s.host = .write .w32 a v :: rest → step s = .refused .accessReserved)
      ∧ (s.host = .read .w32 a :: rest → step s = .refused .accessReserved))
    ∧ (off ∈ [0x04, 0x08, 0x0C, 0x20, 0x28, 0x2C] → s.host = .write .w32 a v :: rest → step s = .next t)

/-- R20, R25: what a host read returns, for every register of the window, and that it changes nothing else. -/
def Obligations.HostReadReturnsTheRegister : Prop :=
  ∀ (s t : State) (a : Addr) (rest : List HostEvent),
    s.host = .read .w32 a :: rest →
    ∀ p ∈ readTable t.blk,
      reaches { s with host := rest } t a p.1 →
      step s = .next { t with observed := .register p.2.1 p.2.2 :: t.observed }

/-- R29, R30, R88, R295: the two halves of an address register, written in either order, leave the whole address
there, faulted or not, and nothing else changes. -/
def Obligations.AddressHalvesInEitherOrder : Prop :=
  ∀ (s : State) (lo hi : Word) (rest : List HostEvent), s.blk.base.toNat % 64 = 0 →
    (∀ lows ∈ ([[(0x10, lo), (0x14, hi)], [(0x14, hi), (0x10, lo)]] : List (List (Nat × Word))),
      s.host = lows.map (fun p => HostEvent.write .w32 (s.blk.base + BitVec.ofNat 64 p.1) p.2) ++ rest →
      runSteps 2 s = .next { s with host := rest, blk := { s.blk with stateAddr := hi ++ lo } })
    ∧ ∀ lows ∈ ([[(0x18, lo), (0x1C, hi)], [(0x1C, hi), (0x18, lo)]] : List (List (Nat × Word))),
      s.host = lows.map (fun p => HostEvent.write .w32 (s.blk.base + BitVec.ofNat 64 p.1) p.2) ++ rest →
      runSteps 2 s = .next { s with host := rest, blk := { s.blk with blockAddr := hi ++ lo } }

/-! ## Reset, and the draws -/

/-- R290, R38, R271: reset of an instance sets every register to 0, leaves it unfaulted and unbound, and touches neither host
memory nor the other instances nor the platform's parameters, so that COMPRESS faults ENGINE_UNBOUND; and the
registers after power-on are 0. That reset is an input for each instance, so that it leaves the others alone, is
the model's choice (log entry 14). -/
def Obligations.ResetClearsEveryRegister : Prop :=
  (∀ (s t : State) (a : Addr) (rest : List HostEvent), s.host = .reset a :: rest →
    { s with host := rest }.select a = some t →
    ∃ u : State, step s = .next u
      ∧ u.blk = { base := t.blk.base, status := 0, result := 0, eng := 0, stateAddr := 0, blockAddr := 0,
                  fcmd := 0, faddr := 0 }
      ∧ u.blk.faulted = false ∧ u.blk.bound = false ∧ u = { t with blk := u.blk } ∧ u.mem = s.mem
      ∧ exec .compress u = .next (faultState u 0x00000401 0x0000000B 0))
  ∧ State.reset.blk = { base := State.reset.blk.base, status := 0, result := 0, eng := 0, stateAddr := 0,
                        blockAddr := 0, fcmd := 0, faddr := 0 }

/-- R292, R263, R266, R271: reset during a command. The registers take their reset values, and every byte outside the state region
that the command would have written keeps its value; of the bytes inside nothing is said. That the
other instances are left alone, and that a word which runs no command leaves memory, is the model's choice (log
entry 14). -/
def Obligations.ResetDuringCommandKeepsOtherMemory : Prop :=
  ∀ (s t : State) (a : Addr) (c : Word) (rest : List HostEvent), s.host = .resetDuring a c :: rest →
    { s with host := rest }.select a = some t →
    ∃ u : State, step s = .next u ∧ u.blk = Block.atReset t.blk.base ∧ u.others = t.others
      ∧ (∀ i, decode c = .ok i → t.blk.faulted = false → ∀ x, spansHave (memWrites i t) x = false →
          readByte u.mem x = readByte s.mem x)
      ∧ ((t.blk.faulted = true ∨ ∃ e, decode c = .error e) → u.mem = s.mem)

/-- R63, U3: a command that other agents race with. Its register effects are those of the command alone, and a
byte that it does not write and that no other agent stores to reads as after the command alone. Of the bytes it
writes nothing is said. -/
def Obligations.RaceAffectsOnlyMemory : Prop :=
  ∀ (s t u : State) (a : Addr) (c : Word) (others : List OtherAccess) (rest : List HostEvent),
    s.host = .racing a c others :: rest → { s with host := rest }.select a = some t →
    (∀ o ∈ others, s.inWindow (otherAddr o).toNat = false) → runCommand c t = .next u →
    ∃ w : State, step s = .next w ∧ w.blk = u.blk ∧ w.others = u.others ∧ w.host = rest
      ∧ ∀ x, spansHave (wordWrites c t) x = false →
          (∀ y v, OtherAccess.write y v ∈ others ∨ OtherAccess.lateStore y v ∈ others → y.toNat ≠ x) →
          readByte w.mem x = readByte u.mem x

/-- R63: a command whose regions no other agent touches is not affected: it ends as it does alone, but for the
bytes the other agents store elsewhere and read. -/
def Obligations.NoRaceWithoutSharedBytes : Prop :=
  ∀ (s t u : State) (a : Addr) (c : Word) (others : List OtherAccess) (rest : List HostEvent),
    s.host = .racing a c others :: rest → { s with host := rest }.select a = some t →
    (∀ o ∈ others, s.inWindow (otherAddr o).toNat = false) → runCommand c t = .next u →
    (∀ o ∈ others, spansHave (wordReads c t ++ wordWrites c t) (otherAddr o).toNat = false) →
    ∃ w : State, step s = .next w ∧ w.draws = u.draws ∧ w.blk = u.blk
      ∧ ∀ x, spansHave (wordReads c t ++ wordWrites c t) x = true → readByte w.mem x = readByte u.mem x

/-! ## The host boundary -/

/-- R241: the padded message. -/
def Obligations.PaddedMessage : Prop :=
  ∀ (v : Variant) (msg : List Byte),
    ∃ z : Nat, pad v msg = msg ++ [0x80] ++ List.replicate z 0
        ++ bytesBE (BitVec.ofNat (8 * padLen v) (8 * msg.length))
      ∧ (msg.length + 1 + z + padLen v) % blockLen v = 0
      ∧ (∀ z' < z, (msg.length + 1 + z' + padLen v) % blockLen v ≠ 0)
      ∧ (pad v msg).length = (msg.length + 1 + padLen v + (blockLen v - 1)) / blockLen v * blockLen v
      ∧ (blocksOf v (pad v msg)).flatten = pad v msg
      ∧ ∀ b ∈ blocksOf v (pad v msg), b.length = blockLen v

/-- R243: the digest of a final state is the first `digest_len(v)` bytes of its words' big-endian serialization,
in whichever order the state region holds them. -/
def Obligations.DigestIsOrderIndependent : Prop :=
  ∀ (v : Variant) (o : ByteOrder) (hs : List (BitVec (familyWordBits (familyOf v)))),
    hs.length * (familyWordBits (familyOf v) / 8) = stateLen v →
    digestOf o v (regionBytes o hs) = (regionBytes .BE hs).take (digestLen v)
    ∧ (digestOf o v (regionBytes o hs)).length = digestLen v

/-- R166, R242: the session sequence of a message, from any unfaulted state with aligned base, with the state region
and every block region admitted and disjoint, ends unfaulted with the final state words of the message in the
state region, in `STATE_ORDER`. The sequence is R242's listing as it stands, LDIV before the binding and the
binding by ENGREF; the forms with ENGNEW and with the other order are left out (log entry 20). -/
def Obligations.SessionLeavesTheHashInTheStateRegion : Prop :=
  ∀ (s : State) (v : Variant) (msg : List Byte) (st : Addr) (blockAt : Nat → Addr),
    s.mem.wf = true → s.blk.faulted = false → s.blk.base.toNat % 64 = 0 →
    s.admits st (stateLen v) = true →
    (∀ j < (blocksOf v (pad v msg)).length, s.admits (blockAt j) (blockLen v) = true
      ∧ ((blockAt j).toNat + blockLen v ≤ st.toNat ∨ st.toNat + stateLen v ≤ (blockAt j).toNat)) →
    s.host = session s.blk.base v msg st blockAt →
    ∃ t : State, runSteps s.host.length s = .next t ∧ t.blk.faulted = false ∧ t.host = []
      ∧ readBytes t.mem st.toNat (stateLen v) = hashRegion s.stateOrder v msg
      ∧ t.blk.eng = engWord implGeneric (familyOf v)

/-! ## The instance that an address selects -/

/-- R20, R38: when the window of some instance holds an address, the selection finds an instance whose window holds
it, keeps every instance with its registers (up to order) and all the rest of the state; the instance already
addressed stays addressed for its own window; and when no window holds the address nothing is selected. Which one
is found where two windows hold the address, and that a window does not wrap, is the model's choice (log entries
4 and 21). -/
def Obligations.AddressSelectsTheInstanceOfItsWindow : Prop :=
  ∀ (s : State) (a : Addr),
    ((∃ b ∈ s.blk :: s.others, b.base.toNat ≤ a.toNat ∧ a.toNat < b.base.toNat + 64) →
      ∃ t : State, s.select a = some t ∧ t.blk.base.toNat ≤ a.toNat ∧ a.toNat < t.blk.base.toNat + 64
        ∧ (t.blk :: t.others).Perm (s.blk :: s.others) ∧ t = { s with blk := t.blk, others := t.others })
    ∧ (s.blk.base.toNat ≤ a.toNat → a.toNat < s.blk.base.toNat + 64 → s.select a = some s)
    ∧ ((∀ b ∈ s.blk :: s.others, ¬ (b.base.toNat ≤ a.toNat ∧ a.toNat < b.base.toNat + 64)) → s.select a = none)
end

