-- ==== Sys2Proof/Laws/State.lean ====
section
/-! SUPPORT. One lemma per field per update of State, each true by rfl. -/

namespace Sys2Proof.Machine

@[simp] theorem State.setResult_blk (s : State) (v : Word) :
    (s.setResult v).blk = { s.blk with result := v } := rfl
@[simp] theorem State.setResult_others (s : State) (v : Word) : (s.setResult v).others = s.others := rfl
@[simp] theorem State.setResult_mem (s : State) (v : Word) : (s.setResult v).mem = s.mem := rfl
@[simp] theorem State.setResult_admitted (s : State) (v : Word) : (s.setResult v).admitted = s.admitted := rfl
@[simp] theorem State.setResult_stateOrder (s : State) (v : Word) :
    (s.setResult v).stateOrder = s.stateOrder := rfl
@[simp] theorem State.setResult_host (s : State) (v : Word) : (s.setResult v).host = s.host := rfl
@[simp] theorem State.setResult_observed (s : State) (v : Word) : (s.setResult v).observed = s.observed := rfl
@[simp] theorem State.setResult_draws (s : State) (v : Word) : (s.setResult v).draws = s.draws := rfl

@[simp] theorem State.setEng_blk (s : State) (v : Word) : (s.setEng v).blk = { s.blk with eng := v } := rfl
@[simp] theorem State.setEng_others (s : State) (v : Word) : (s.setEng v).others = s.others := rfl
@[simp] theorem State.setEng_mem (s : State) (v : Word) : (s.setEng v).mem = s.mem := rfl
@[simp] theorem State.setEng_admitted (s : State) (v : Word) : (s.setEng v).admitted = s.admitted := rfl
@[simp] theorem State.setEng_stateOrder (s : State) (v : Word) : (s.setEng v).stateOrder = s.stateOrder := rfl
@[simp] theorem State.setEng_host (s : State) (v : Word) : (s.setEng v).host = s.host := rfl
@[simp] theorem State.setEng_observed (s : State) (v : Word) : (s.setEng v).observed = s.observed := rfl
@[simp] theorem State.setEng_draws (s : State) (v : Word) : (s.setEng v).draws = s.draws := rfl

@[simp] theorem State.setStateAddr_blk (s : State) (v : Addr) :
    (s.setStateAddr v).blk = { s.blk with stateAddr := v } := rfl
@[simp] theorem State.setStateAddr_others (s : State) (v : Addr) : (s.setStateAddr v).others = s.others := rfl
@[simp] theorem State.setStateAddr_mem (s : State) (v : Addr) : (s.setStateAddr v).mem = s.mem := rfl
@[simp] theorem State.setStateAddr_admitted (s : State) (v : Addr) :
    (s.setStateAddr v).admitted = s.admitted := rfl
@[simp] theorem State.setStateAddr_stateOrder (s : State) (v : Addr) :
    (s.setStateAddr v).stateOrder = s.stateOrder := rfl
@[simp] theorem State.setStateAddr_host (s : State) (v : Addr) : (s.setStateAddr v).host = s.host := rfl
@[simp] theorem State.setStateAddr_observed (s : State) (v : Addr) :
    (s.setStateAddr v).observed = s.observed := rfl
@[simp] theorem State.setStateAddr_draws (s : State) (v : Addr) : (s.setStateAddr v).draws = s.draws := rfl

@[simp] theorem State.setBlockAddr_blk (s : State) (v : Addr) :
    (s.setBlockAddr v).blk = { s.blk with blockAddr := v } := rfl
@[simp] theorem State.setBlockAddr_others (s : State) (v : Addr) : (s.setBlockAddr v).others = s.others := rfl
@[simp] theorem State.setBlockAddr_mem (s : State) (v : Addr) : (s.setBlockAddr v).mem = s.mem := rfl
@[simp] theorem State.setBlockAddr_admitted (s : State) (v : Addr) :
    (s.setBlockAddr v).admitted = s.admitted := rfl
@[simp] theorem State.setBlockAddr_stateOrder (s : State) (v : Addr) :
    (s.setBlockAddr v).stateOrder = s.stateOrder := rfl
@[simp] theorem State.setBlockAddr_host (s : State) (v : Addr) : (s.setBlockAddr v).host = s.host := rfl
@[simp] theorem State.setBlockAddr_observed (s : State) (v : Addr) :
    (s.setBlockAddr v).observed = s.observed := rfl
@[simp] theorem State.setBlockAddr_draws (s : State) (v : Addr) : (s.setBlockAddr v).draws = s.draws := rfl

@[simp] theorem State.memWrite_blk (s : State) (a : Nat) (bs : List Byte) : (s.memWrite a bs).blk = s.blk := rfl
@[simp] theorem State.memWrite_others (s : State) (a : Nat) (bs : List Byte) :
    (s.memWrite a bs).others = s.others := rfl
@[simp] theorem State.memWrite_mem (s : State) (a : Nat) (bs : List Byte) :
    (s.memWrite a bs).mem = writeBytes s.mem a bs := rfl
@[simp] theorem State.memWrite_admitted (s : State) (a : Nat) (bs : List Byte) :
    (s.memWrite a bs).admitted = s.admitted := rfl
@[simp] theorem State.memWrite_stateOrder (s : State) (a : Nat) (bs : List Byte) :
    (s.memWrite a bs).stateOrder = s.stateOrder := rfl
@[simp] theorem State.memWrite_host (s : State) (a : Nat) (bs : List Byte) : (s.memWrite a bs).host = s.host := rfl
@[simp] theorem State.memWrite_observed (s : State) (a : Nat) (bs : List Byte) :
    (s.memWrite a bs).observed = s.observed := rfl
@[simp] theorem State.memWrite_draws (s : State) (a : Nat) (bs : List Byte) :
    (s.memWrite a bs).draws = s.draws := rfl

@[simp] theorem State.raiseFault_blk (s : State) (c : Word) (f : FaultCode) (x : Addr) :
    (s.raiseFault c f x).blk = { s.blk with status := statusWord f, fcmd := c, faddr := x } := rfl
@[simp] theorem State.raiseFault_others (s : State) (c : Word) (f : FaultCode) (x : Addr) :
    (s.raiseFault c f x).others = s.others := rfl
@[simp] theorem State.raiseFault_mem (s : State) (c : Word) (f : FaultCode) (x : Addr) :
    (s.raiseFault c f x).mem = s.mem := rfl
@[simp] theorem State.raiseFault_admitted (s : State) (c : Word) (f : FaultCode) (x : Addr) :
    (s.raiseFault c f x).admitted = s.admitted := rfl
@[simp] theorem State.raiseFault_stateOrder (s : State) (c : Word) (f : FaultCode) (x : Addr) :
    (s.raiseFault c f x).stateOrder = s.stateOrder := rfl
@[simp] theorem State.raiseFault_host (s : State) (c : Word) (f : FaultCode) (x : Addr) :
    (s.raiseFault c f x).host = s.host := rfl
@[simp] theorem State.raiseFault_observed (s : State) (c : Word) (f : FaultCode) (x : Addr) :
    (s.raiseFault c f x).observed = s.observed := rfl
@[simp] theorem State.raiseFault_draws (s : State) (c : Word) (f : FaultCode) (x : Addr) :
    (s.raiseFault c f x).draws = s.draws := rfl

@[simp] theorem State.resetBlk_blk (s : State) : (s.resetBlk).blk = Block.atReset s.blk.base := rfl
@[simp] theorem State.resetBlk_others (s : State) : (s.resetBlk).others = s.others := rfl
@[simp] theorem State.resetBlk_mem (s : State) : (s.resetBlk).mem = s.mem := rfl
@[simp] theorem State.resetBlk_admitted (s : State) : (s.resetBlk).admitted = s.admitted := rfl
@[simp] theorem State.resetBlk_stateOrder (s : State) : (s.resetBlk).stateOrder = s.stateOrder := rfl
@[simp] theorem State.resetBlk_host (s : State) : (s.resetBlk).host = s.host := rfl
@[simp] theorem State.resetBlk_observed (s : State) : (s.resetBlk).observed = s.observed := rfl
@[simp] theorem State.resetBlk_draws (s : State) : (s.resetBlk).draws = s.draws := rfl

@[simp] theorem State.drawSpan_blk (s : State) (r : Span) : (s.drawSpan r).blk = s.blk := rfl
@[simp] theorem State.drawSpan_others (s : State) (r : Span) : (s.drawSpan r).others = s.others := rfl
@[simp] theorem State.drawSpan_mem (s : State) (r : Span) :
    (s.drawSpan r).mem = writeBytes s.mem r.base (freeBytes s.draws r.len) := rfl
@[simp] theorem State.drawSpan_admitted (s : State) (r : Span) : (s.drawSpan r).admitted = s.admitted := rfl
@[simp] theorem State.drawSpan_stateOrder (s : State) (r : Span) : (s.drawSpan r).stateOrder = s.stateOrder := rfl
@[simp] theorem State.drawSpan_host (s : State) (r : Span) : (s.drawSpan r).host = s.host := rfl
@[simp] theorem State.drawSpan_observed (s : State) (r : Span) : (s.drawSpan r).observed = s.observed := rfl
@[simp] theorem State.drawSpan_draws (s : State) (r : Span) : (s.drawSpan r).draws = s.draws + r.len := rfl

@[simp] theorem State.observe_blk (s : State) (o : Observation) : (s.observe o).blk = s.blk := rfl
@[simp] theorem State.observe_others (s : State) (o : Observation) : (s.observe o).others = s.others := rfl
@[simp] theorem State.observe_mem (s : State) (o : Observation) : (s.observe o).mem = s.mem := rfl
@[simp] theorem State.observe_admitted (s : State) (o : Observation) : (s.observe o).admitted = s.admitted := rfl
@[simp] theorem State.observe_stateOrder (s : State) (o : Observation) :
    (s.observe o).stateOrder = s.stateOrder := rfl
@[simp] theorem State.observe_host (s : State) (o : Observation) : (s.observe o).host = s.host := rfl
@[simp] theorem State.observe_observed (s : State) (o : Observation) :
    (s.observe o).observed = o :: s.observed := rfl
@[simp] theorem State.observe_draws (s : State) (o : Observation) : (s.observe o).draws = s.draws := rfl

/-! ## Register fields at reset -/

@[simp] theorem Block.atReset_base (b : Addr) : (Block.atReset b).base = b := rfl
@[simp] theorem Block.atReset_status (b : Addr) : (Block.atReset b).status = 0 := rfl
@[simp] theorem Block.atReset_result (b : Addr) : (Block.atReset b).result = 0 := rfl
@[simp] theorem Block.atReset_eng (b : Addr) : (Block.atReset b).eng = 0 := rfl
@[simp] theorem Block.atReset_stateAddr (b : Addr) : (Block.atReset b).stateAddr = 0 := rfl
@[simp] theorem Block.atReset_blockAddr (b : Addr) : (Block.atReset b).blockAddr = 0 := rfl
@[simp] theorem Block.atReset_fcmd (b : Addr) : (Block.atReset b).fcmd = 0 := rfl
@[simp] theorem Block.atReset_faddr (b : Addr) : (Block.atReset b).faddr = 0 := rfl

/-! ## The flag and the fields of ENG -/

/-- A raised fault sets STATUS.FAULT (R262). -/
@[simp] theorem faulted_statusWord (f : FaultCode) : (statusWord f).getLsbD 0 = true := by cases f <;> decide

/-- An instance with a recorded fault is faulted (R262). -/
@[simp] theorem Block.faulted_recorded (b : Block) (f : FaultCode) (c : Word) (x : Addr) :
    Block.faulted { b with status := statusWord f, fcmd := c, faddr := x } = true := faulted_statusWord f

/-- The registers that a command writes leave STATUS.FAULT as it is. -/
@[simp] theorem Block.faulted_result (b : Block) (v : Word) : Block.faulted { b with result := v } = b.faulted := rfl
@[simp] theorem Block.faulted_eng (b : Block) (v : Word) : Block.faulted { b with eng := v } = b.faulted := rfl
@[simp] theorem Block.faulted_stateAddr (b : Block) (v : Addr) :
    Block.faulted { b with stateAddr := v } = b.faulted := rfl
@[simp] theorem Block.faulted_blockAddr (b : Block) (v : Addr) :
    Block.faulted { b with blockAddr := v } = b.faulted := rfl

/-- A raised fault leaves the instance faulted (R262). -/
theorem State.raiseFault_faulted (s : State) (c : Word) (f : FaultCode) (x : Addr) :
    (s.raiseFault c f x).blk.faulted = true := by simp [Block.faulted]

/-- A reset instance is not faulted (R290). -/
@[simp] theorem Block.atReset_faulted (b : Addr) : (Block.atReset b).faulted = false := by simp [Block.faulted]

/-- A binding sets ENG.BOUND (R28). -/
theorem bound_engWord (i : BitVec 4) (f : Family) : (engWord i f).getLsbD 31 = true := by
  revert i; cases f <;> decide

/-- A binding holds its implementation code (R28). -/
theorem impl_engWord (i : BitVec 4) (f : Family) : (engWord i f).extractLsb' 4 4 = i := by
  revert i; cases f <;> decide

/-- A binding holds its family code (R28). -/
theorem family_engWord (i : BitVec 4) (f : Family) : (engWord i f).extractLsb' 0 2 = familyCode f := by
  revert i; cases f <;> decide

/-- A family is read back from its code (R160). -/
@[simp] theorem familyOfCode_familyCode (f : Family) : familyOfCode? (familyCode f) = some f := by cases f <;> rfl

/-- A variant is read back from its code (R82). -/
@[simp] theorem variantOfCode_variantCode (v : Variant) : variantOfCode? (variantCode v) = some v := by
  cases v <;> rfl

/-- The only code that names no variant is 7 (R82). -/
theorem variantOfCode_none {x : BitVec 3} : variantOfCode? x = none ↔ x = 7 := by revert x; decide

/-- The code of the variant read from a code is that code (R82). -/
theorem variantCode_of_some {x : BitVec 3} {v : Variant} (h : variantOfCode? x = some v) : variantCode v = x := by
  revert x v; decide

end Sys2Proof.Machine
end

