-- ==== Sys2Proof/Laws/Memory.lean ====
section
/-! SUPPORT. Host memory: read after write, and the canonical form is kept. -/

namespace Sys2Proof.Machine

/-! ## One byte -/

@[simp] theorem readByte_nil (a : Nat) : readByte [] a = unlistedByte := rfl

/-- In a canonical memory every listed address lies above the bound that the first one does. -/
theorem wf_tail {k : Nat} {x : Byte} {m : Memory} (h : Memory.wf ((k, x) :: m) = true) : Memory.wf m = true := by
  cases m with
  | nil => rfl
  | cons c m => simp only [Memory.wf, Bool.and_eq_true] at h; exact h.2

theorem wf_head_ne {k : Nat} {x : Byte} {m : Memory} (h : Memory.wf ((k, x) :: m) = true) : x ≠ unlistedByte := by
  cases m with
  | nil => simp only [Memory.wf, Bool.and_eq_true, bne_iff_ne] at h; exact h.2
  | cons c m => simp only [Memory.wf, Bool.and_eq_true, bne_iff_ne] at h; exact h.1.2

theorem wf_head_lt {k : Nat} {x : Byte} {m : Memory} (h : Memory.wf ((k, x) :: m) = true) : k < addrSpace := by
  induction m generalizing k x with
  | nil => simp only [Memory.wf, Bool.and_eq_true, decide_eq_true_eq] at h; exact h.1
  | cons c m ih =>
    have hl : k < c.1 := by simp only [Memory.wf, Bool.and_eq_true, decide_eq_true_eq] at h; exact h.1.1
    exact hl.trans (ih (wf_tail h))

/-- The first address of a canonical memory lies below every other one. -/
theorem wf_rising {k : Nat} {x : Byte} {m : Memory} (h : Memory.wf ((k, x) :: m) = true) :
    ∀ c ∈ m, k < c.1 := by
  induction m generalizing k x with
  | nil => simp
  | cons c m ih =>
    have hl : k < c.1 := by simp only [Memory.wf, Bool.and_eq_true, decide_eq_true_eq] at h; exact h.1.1
    intro d hd
    rcases List.mem_cons.1 hd with rfl | hd
    · exact hl
    · exact hl.trans (ih (wf_tail h) d hd)

/-- A memory is canonical when its first cell is good, lies below the rest, and the rest is canonical. -/
theorem wf_cons {k : Nat} {x : Byte} {m : Memory} (hk : k < addrSpace) (hx : x ≠ unlistedByte)
    (hm : Memory.wf m = true) (hl : ∀ c ∈ m, k < c.1) : Memory.wf ((k, x) :: m) = true := by
  cases m with
  | nil => simp [Memory.wf, hk, hx]
  | cons c m =>
    have := hl c (by simp)
    simp [Memory.wf, hm, hx, this]

/-- Every address a write leaves listed was listed before or is the written one. -/
theorem mem_writeByte {m : Memory} {a : Nat} {v : Byte} {c : Host.Cell} (h : c ∈ writeByte m a v) :
    c.1 = a ∨ c ∈ m := by
  induction m with
  | nil => unfold writeByte at h; split at h <;> simp_all
  | cons d m ih =>
    obtain ⟨k, x⟩ := d
    unfold writeByte at h
    split at h
    · split at h <;> simp_all
      rcases h with rfl | h
      · exact .inl rfl
      · exact .inr h
    · split at h
      · subst a
        split at h
        · exact .inr (List.mem_cons_of_mem _ h)
        · rcases List.mem_cons.1 h with rfl | h
          · exact .inl rfl
          · exact .inr (List.mem_cons_of_mem _ h)
      · rcases List.mem_cons.1 h with rfl | h
        · exact .inr (by simp)
        · rcases ih h with h | h
          · exact .inl h
          · exact .inr (List.mem_cons_of_mem _ h)

/-- A one-byte write below `2^64` keeps the canonical form. -/
theorem wf_writeByte {m : Memory} {a : Nat} (v : Byte) (ha : a < addrSpace) (h : m.wf = true) :
    Memory.wf (writeByte m a v) = true := by
  induction m with
  | nil =>
    unfold writeByte
    split
    · rfl
    · rename_i hv; exact wf_cons ha hv rfl (by simp)
  | cons c m ih =>
    obtain ⟨k, x⟩ := c
    have hr := wf_rising h
    unfold writeByte
    split
    · rename_i hak
      split
      · exact h
      · rename_i hv
        refine wf_cons ha hv h fun d hd => ?_
        rcases List.mem_cons.1 hd with rfl | hd
        · exact hak
        · exact hak.trans (hr d hd)
    · rename_i hak
      split
      · subst a
        split
        · exact wf_tail h
        · rename_i hv; exact wf_cons ha hv (wf_tail h) hr
      · rename_i hne
        refine wf_cons (wf_head_lt h) (wf_head_ne h) (ih (wf_tail h)) fun d hd => ?_
        rcases mem_writeByte hd with h1 | h1
        · show k < d.1
          omega
        · exact hr d h1

/-- In a canonical memory an address below the first listed one reads as an unlisted byte. -/
theorem readByte_of_lt {m : Memory} {a : Nat} (h : ∀ c ∈ m, a < c.1) : readByte m a = unlistedByte := by
  induction m with
  | nil => rfl
  | cons c m ih =>
    have := h c (by simp)
    unfold readByte
    rw [if_neg (by omega)]
    exact ih fun d hd => h d (List.mem_cons_of_mem _ hd)

/-- A written byte reads back (canonical memories). -/
theorem readByte_writeByte_self {m : Memory} (a : Nat) (v : Byte) (h : m.wf = true) :
    readByte (writeByte m a v) a = v := by
  induction m with
  | nil => unfold writeByte; split <;> simp_all [readByte]
  | cons c m ih =>
    obtain ⟨k, x⟩ := c
    have hr := wf_rising h
    unfold writeByte
    split
    · rename_i hak
      split
      · rename_i hv
        rw [hv]
        refine readByte_of_lt fun d hd => ?_
        rcases List.mem_cons.1 hd with rfl | hd
        · exact hak
        · exact hak.trans (hr d hd)
      · simp [readByte]
    · split
      · subst a
        split
        · rename_i hv; rw [hv]; exact readByte_of_lt hr
        · simp [readByte]
      · rename_i hne
        simp only [readByte, hne, if_false]
        exact ih (wf_tail h)

/-- Every other byte reads as before. -/
theorem readByte_writeByte_ne {m : Memory} {a b : Nat} (v : Byte) (hne : b ≠ a) :
    readByte (writeByte m a v) b = readByte m b := by
  induction m with
  | nil => unfold writeByte; split <;> simp [readByte, hne]
  | cons c m ih =>
    obtain ⟨k, x⟩ := c
    unfold writeByte
    split
    · split
      · rfl
      · simp [readByte, hne]
    · split
      · subst a
        split <;> simp [readByte, hne]
      · simp only [readByte, ih]

/-! ## Ranges -/

@[simp] theorem readBytes_length (m : Memory) (a n : Nat) : (readBytes m a n).length = n := by simp [readBytes]

theorem readBytes_getElem? (m : Memory) (a n k : Nat) (hk : k < n) :
    (readBytes m a n)[k]? = some (readByte m (a + k)) := by
  simp [readBytes, hk]

/-- Two memories that agree on a range read the same there. -/
theorem readBytes_congr {m m' : Memory} {a n : Nat} (h : ∀ k < n, readByte m (a + k) = readByte m' (a + k)) :
    readBytes m a n = readBytes m' a n := by
  unfold readBytes
  exact List.map_congr_left fun k hk => h k (List.mem_range.1 hk)

@[simp] theorem writeBytes_nil (m : Memory) (a : Nat) : writeBytes m a [] = m := rfl

@[simp] theorem writeBytes_cons (m : Memory) (a : Nat) (b : Byte) (bs : List Byte) :
    writeBytes m a (b :: bs) = writeBytes (writeByte m a b) (a + 1) bs := rfl

/-- A write that stays below `2^64` keeps the canonical form. -/
theorem wf_writeBytes {m : Memory} {a : Nat} (bs : List Byte) (hb : a + bs.length ≤ addrSpace)
    (h : m.wf = true) : Memory.wf (writeBytes m a bs) = true := by
  induction bs generalizing m a with
  | nil => exact h
  | cons b bs ih =>
    simp only [List.length_cons] at hb
    exact ih (by omega) (wf_writeByte b (by omega) h)

/-- Bytes outside a written range read as before. -/
theorem readByte_writeBytes_outside {m : Memory} {a b : Nat} (bs : List Byte)
    (hb : b < a ∨ a + bs.length ≤ b) : readByte (writeBytes m a bs) b = readByte m b := by
  induction bs generalizing m a with
  | nil => rfl
  | cons c bs ih =>
    simp only [List.length_cons] at hb
    rw [writeBytes_cons, ih (by omega), readByte_writeByte_ne c (by omega)]

/-- Bytes of a written range read back (canonical memories). -/
theorem readByte_writeBytes_inside {m : Memory} {a k : Nat} (bs : List Byte) (hk : k < bs.length)
    (hb : a + bs.length ≤ addrSpace) (h : m.wf = true) : readByte (writeBytes m a bs) (a + k) = bs[k] := by
  induction bs generalizing m a k with
  | nil => simp at hk
  | cons c bs ih =>
    simp only [List.length_cons] at hb
    rw [writeBytes_cons]
    cases k with
    | zero =>
      rw [readByte_writeBytes_outside bs (by omega)]
      simpa using readByte_writeByte_self a c h
    | succ k =>
      have := ih (m := writeByte m a c) (a := a + 1) (k := k) (by simpa using hk) (by omega)
        (wf_writeByte c (by omega) h)
      rw [show a + (k + 1) = a + 1 + k by omega, this]
      rfl

/-- A written range reads back whole (canonical memories). -/
theorem readBytes_writeBytes {m : Memory} {a : Nat} (bs : List Byte) (hb : a + bs.length ≤ addrSpace)
    (h : m.wf = true) : readBytes (writeBytes m a bs) a bs.length = bs := by
  apply List.ext_getElem (by simp)
  intro k h1 h2
  simp only [readBytes, List.getElem_map, List.getElem_range]
  exact readByte_writeBytes_inside bs h2 hb h

/-- Memory right after reset is canonical. -/
theorem reset_mem_wf : State.reset.mem.wf = true := rfl

@[simp] theorem freeBytes_length (d n : Nat) : (freeBytes d n).length = n := by simp [freeBytes]

end Sys2Proof.Machine
end

