-- ==== Sys2Proof/Laws/Words.lean ====
section
/-! SUPPORT. Bytes and words of the regions: the lengths (spec/20_memory.md R57), the bytes of one word, and the
rotates in the library's terms. -/

namespace Sys2Proof.Machine

/-! ## Lengths -/

@[simp] theorem bytesBE_length {w : Nat} (x : BitVec w) : (bytesBE x).length = w / 8 := by simp [bytesBE]

@[simp] theorem bytesLE_length {w : Nat} (x : BitVec w) : (bytesLE x).length = w / 8 := by simp [bytesLE]

@[simp] theorem bytesOf_length (o : ByteOrder) {w : Nat} (x : BitVec w) : (bytesOf o x).length = w / 8 := by
  cases o <;> simp [bytesOf]

@[simp] theorem wordsOf_length (o : ByteOrder) (w n : Nat) (bs : List Byte) : (wordsOf o w n bs).length = n := by
  simp [wordsOf]

@[simp] theorem regionBytes_length (o : ByteOrder) {w : Nat} (hs : List (BitVec w)) :
    (regionBytes o hs).length = hs.length * (w / 8) := by
  simp [regionBytes, List.length_flatMap]

@[simp] theorem sha1Compress_length (h m : List (BitVec 32)) : (sha1Compress h m).length = 5 := rfl

@[simp] theorem sha256Compress_length (h m : List (BitVec 32)) : (sha256Compress h m).length = 8 := rfl

@[simp] theorem sha512Compress_length (h m : List (BitVec 64)) : (sha512Compress h m).length = 8 := rfl

/-- A routine writes back exactly the state region of its family (R161, R164). -/
@[simp] theorem routineBytes_length (o : ByteOrder) (f : Family) (st blk : List Byte) :
    (routineBytes o f st blk).length = familyStateLen f := by
  cases f <;> simp [routineBytes, familyStateLen]

@[simp] theorem compressBytes_length (s : State) (f : Family) :
    (compressBytes s f).length = familyStateLen f := by simp [compressBytes]

/-- LDIV writes exactly `state_len(v)` bytes (R120, R121). -/
@[simp] theorem ivBytes_length (o : ByteOrder) (v : Variant) : (ivBytes o v).length = stateLen v := by
  cases v <;> simp [ivBytes, ivWords, familyOf, familyWordBits, stateLen]

/-- The state length of a variant is its family's (R57, R101). -/
theorem familyStateLen_familyOf (v : Variant) : familyStateLen (familyOf v) = stateLen v := by cases v <;> rfl

/-- The block length of a variant is its family's (R57, R101). -/
theorem familyBlockLen_familyOf (v : Variant) : familyBlockLen (familyOf v) = blockLen v := by cases v <;> rfl

/-! ## Bytes of a word -/

/-- Byte `j` of a word, most significant first. -/
theorem bytesBE_getElem? {w : Nat} (x : BitVec w) {j : Nat} (hj : j < w / 8) :
    (bytesBE x)[j]? = some (x.extractLsb' (8 * (w / 8 - 1 - j)) 8) := by
  simp only [bytesBE, List.getElem?_map, List.getElem?_range hj, Option.map_some, Option.some.injEq]
  ext i hi
  simp [BitVec.getElem_extractLsb']

/-- Byte `j` of a word, least significant first. -/
theorem bytesLE_getElem? {w : Nat} (x : BitVec w) {j : Nat} (hj : j < w / 8) :
    (bytesLE x)[j]? = some (x.extractLsb' (8 * j) 8) := by
  rw [bytesLE, List.getElem?_reverse (by simpa using hj)]
  rw [bytesBE_length, bytesBE_getElem? x (by omega)]
  congr 3
  omega

/-- Byte `j` of word `i` of a region (R55, R56). -/
theorem regionBytes_getElem? (o : ByteOrder) {w : Nat} (hs : List (BitVec w)) {i j : Nat} (hj : j < w / 8) :
    (regionBytes o hs)[i * (w / 8) + j]? = hs[i]?.bind fun x => (bytesOf o x)[j]? := by
  induction hs generalizing i with
  | nil => simp [regionBytes]
  | cons x hs ih =>
    simp only [regionBytes, List.flatMap_cons] at ih ⊢
    cases i with
    | zero =>
      rw [List.getElem?_append_left (by simpa using hj)]
      simp
    | succ i =>
      have hlen := bytesOf_length o x
      have hmul : (i + 1) * (w / 8) = i * (w / 8) + w / 8 := Nat.succ_mul i (w / 8)
      rw [List.getElem?_append_right (by omega), hlen,
        show (i + 1) * (w / 8) + j - w / 8 = i * (w / 8) + j by omega, ih]
      simp

/-! ## Rotates -/

/-- `ROTL` is the library's rotate (R10). -/
theorem rotl_eq_rotateLeft {w n : Nat} (x : BitVec w) (hn : n < w) : rotl n x = x.rotateLeft n := by
  rw [rotl, rotr, BitVec.rotateLeft_def, Nat.mod_eq_of_lt hn, Nat.sub_sub_self hn.le, BitVec.or_comm]

/-- `ROTR` is the library's rotate (R10). -/
theorem rotr_eq_rotateRight {w n : Nat} (x : BitVec w) (hn : n < w) : rotr n x = x.rotateRight n := by
  rw [rotr, BitVec.rotateRight_def, Nat.mod_eq_of_lt hn]

end Sys2Proof.Machine
end

