-- ==== Sys2Proof/Laws/Ops.lean ====
section
/-! SUPPORT. What each shared operation can do, once: the checks of a command, admission, the selection of an
instance, and the commands themselves. -/

namespace Sys2Proof.Machine

/-! ## The checks of a command -/

/-- What a command behind the VAR check can do: RESERVED_VARIANT for the code 7, the variant's effect
otherwise. -/
theorem withVariant_eq (c : Word) (var : BitVec 3) (s : State) (k : Variant → Answer) :
    (var = 7 ∧ withVariant c var s k = .next (s.raiseFault c .reservedVariant 0))
      ∨ ∃ v, variantOfCode? var = some v ∧ variantCode v = var ∧ withVariant c var s k = k v := by
  unfold withVariant
  cases h : variantOfCode? var with
  | none => exact .inl ⟨variantOfCode_none.1 h, rfl⟩
  | some v => exact .inr ⟨v, rfl, variantCode_of_some h, rfl⟩

@[simp] theorem withVariant_code (c : Word) (v : Variant) (s : State) (k : Variant → Answer) :
    withVariant c (variantCode v) s k = k v := by simp [withVariant]

/-- What a command behind the IMPL check can do. -/
theorem withImpl_eq (c : Word) (impl : BitVec 4) (s : State) (k : Answer) :
    (impl ∉ implSet ∧ withImpl c impl s k = .next (s.raiseFault c .reservedImpl 0))
      ∨ (impl = implGeneric ∧ withImpl c impl s k = k) := by
  by_cases h : impl = implGeneric
  · exact .inr ⟨h, by simp [withImpl, implSet, h]⟩
  · exact .inl ⟨by simpa [implSet] using h, by simp [withImpl, implSet, h]⟩

@[simp] theorem withImpl_generic (c : Word) (s : State) (k : Answer) : withImpl c implGeneric s k = k := by
  simp [withImpl, implSet]

/-! ## Ranges of bytes and windows -/

theorem Span.has_iff (r : Span) (a : Nat) : r.has a = true ↔ r.base ≤ a ∧ a < r.base + r.len := by
  simp [Span.has]

theorem Span.has_false_iff (r : Span) (a : Nat) : r.has a = false ↔ a < r.base ∨ r.base + r.len ≤ a := by
  rw [← Bool.not_eq_true, Span.has_iff]; omega

@[simp] theorem spansHave_nil (a : Nat) : spansHave [] a = false := rfl

@[simp] theorem spansHave_cons (r : Span) (rs : List Span) (a : Nat) :
    spansHave (r :: rs) a = (r.has a || spansHave rs a) := rfl

@[simp] theorem spansHave_append (rs qs : List Span) (a : Nat) :
    spansHave (rs ++ qs) a = (spansHave rs a || spansHave qs a) := by simp [spansHave]

theorem spansOverlap_false_iff (r q : Span) :
    spansOverlap r q = false ↔ q.base + q.len ≤ r.base ∨ r.base + r.len ≤ q.base := by
  unfold spansOverlap
  rw [Bool.and_eq_false_iff, decide_eq_false_iff_not, decide_eq_false_iff_not]
  omega

theorem spansOverlap_iff (r q : Span) :
    spansOverlap r q = true ↔ r.base < q.base + q.len ∧ q.base < r.base + r.len := by
  simp [spansOverlap]

theorem Block.decodes_iff (b : Block) (a : Nat) :
    b.decodes a = true ↔ b.base.toNat ≤ a ∧ a < b.base.toNat + 64 := Span.has_iff _ _

theorem memAdmit_not_inWindow {s : State} {a : Nat} (h : s.memAdmit a = true) : s.inWindow a = false := by
  simp only [State.memAdmit, Bool.and_eq_true, Bool.not_eq_true'] at h
  exact h.2

/-! ## Admission (R52) -/

/-- An admitted region does not cross the top of the address space, and each of its bytes is admitted. -/
theorem admit_iff (s : State) (a : Addr) (n : Nat) :
    s.admits a n = true ↔ a.toNat + n ≤ addrSpace ∧ ∀ k < n, s.memAdmit (a.toNat + k) = true := by
  simp [State.admits, List.all_eq_true]

theorem admit_le {s : State} {a : Addr} {n : Nat} (h : s.admits a n = true) : a.toNat + n ≤ addrSpace :=
  ((admit_iff s a n).1 h).1

/-! ## The checks of COMPRESS (R164) -/

/-- COMPRESS runs exactly when every check passes. -/
theorem compressCheck_run_iff (s : State) (f : Family) :
    compressCheck s = .run f ↔
      s.blk.bound = true ∧ avail s.blk.engImpl = true ∧ familyOfCode? s.blk.engFamily = some f
        ∧ s.admits s.blk.stateAddr (familyStateLen f) = true
        ∧ s.admits s.blk.blockAddr (familyBlockLen f) = true
        ∧ spansOverlap (s.stateSpan f) (s.blockSpan f) = false := by
  unfold compressCheck
  cases hb : s.blk.bound <;> cases ha : avail s.blk.engImpl <;> simp
  cases hf : familyOfCode? s.blk.engFamily with
  | none => simp
  | some g =>
    simp only [Option.some.injEq]
    cases h1 : s.admits s.blk.stateAddr (familyStateLen g) <;>
      cases h2 : s.admits s.blk.blockAddr (familyBlockLen g) <;>
      cases h3 : spansOverlap (s.stateSpan g) (s.blockSpan g) <;> simp
    all_goals rintro rfl; simp_all

/-- What a running COMPRESS has checked. -/
theorem compressCheck_run {s : State} {f : Family} (h : compressCheck s = .run f) :
    s.blk.bound = true ∧ avail s.blk.engImpl = true ∧ familyOfCode? s.blk.engFamily = some f
      ∧ s.admits s.blk.stateAddr (familyStateLen f) = true ∧ s.admits s.blk.blockAddr (familyBlockLen f) = true
      ∧ spansOverlap (s.stateSpan f) (s.blockSpan f) = false := (compressCheck_run_iff s f).1 h

/-- Only BUS_ERROR records an address (R164, R260). -/
theorem compressCheck_raise {s : State} {f : FaultCode} {x : Addr} (h : compressCheck s = .raise f x) :
    f ≠ .busError → x = 0 := by
  unfold compressCheck at h
  (repeat' split at h) <;> simp_all

/-! ## What a command can do -/

/-- Everything a command can answer: a raised fault (with an address only for BUS_ERROR), a new RESULT, a new ENG, both, or bytes stored into the
region it writes. -/
theorem exec_cases {i : Instr} {s t : State} (h : exec i s = .next t) :
    (∃ f x, (f ≠ .busError → x = 0) ∧ t = s.raiseFault (encode i) f x)
      ∨ (opOf i ∈ ([.QBLK, .QSTL, .QDGL, .QPDL, .FAST, .FASTRT, .AVAIL] : List Op)
          ∧ ∃ r, resultLegal r ∧ t = s.setResult r)
      ∨ (opOf i = .ENGNEW ∧ ∃ v, t = s.setEng (engWord implGeneric (familyOf v)))
      ∨ (opOf i = .ENGREF ∧ ∃ v,
          t = (s.setEng (engWord implGeneric (familyOf v))).setResult (singletonId implGeneric (familyOf v)))
      ∨ (opOf i ∈ ([.LDIV, .COMPRESS] : List Op) ∧ ∃ bs, bs.length ≤ 64 ∧ s.blk.stateAddr.toNat + bs.length ≤ addrSpace
          ∧ memWrites i s = [⟨s.blk.stateAddr.toNat, bs.length⟩]
          ∧ t = s.memWrite s.blk.stateAddr.toNat bs) := by
  have hq : ∀ (c : Word) (var : BitVec 3) (len : Variant → Nat), (∀ v, resultLegal (BitVec.ofNat 32 (len v))) →
      query c var len s = .next t →
      (∃ f x, (f ≠ .busError → x = 0) ∧ t = s.raiseFault c f x) ∨ ∃ r, resultLegal r ∧ t = s.setResult r := by
    intro c var len hlen hq
    rcases withVariant_eq c var s (fun v => .next (s.setResult (BitVec.ofNat 32 (len v)))) with ⟨-, e⟩ | ⟨v, -, -, e⟩
    · exact .inl ⟨.reservedVariant, 0, fun _ => rfl, by simpa [query, e] using hq.symm⟩
    · exact .inr ⟨_, hlen v, by simpa [query, e] using hq.symm⟩
  cases i with
  | qblk var =>
    rcases hq _ var blockLen (by intro v; cases v <;> decide) h with h | h
    · exact .inl h
    · exact .inr (.inl ⟨by simp [opOf], h⟩)
  | qstl var =>
    rcases hq _ var stateLen (by intro v; cases v <;> decide) h with h | h
    · exact .inl h
    · exact .inr (.inl ⟨by simp [opOf], h⟩)
  | qdgl var =>
    rcases hq _ var digestLen (by intro v; cases v <;> decide) h with h | h
    · exact .inl h
    · exact .inr (.inl ⟨by simp [opOf], h⟩)
  | qpdl var =>
    rcases hq _ var padLen (by intro v; cases v <;> decide) h with h | h
    · exact .inl h
    · exact .inr (.inl ⟨by simp [opOf], h⟩)
  | fast => exact .inr (.inl ⟨by simp [opOf], implGeneric.setWidth 32, by decide, by simpa [exec, execFast] using h.symm⟩)
  | fastrt => exact .inr (.inl ⟨by simp [opOf], implGeneric.setWidth 32, by decide, by simpa [exec, execFastrt] using h.symm⟩)
  | avail impl =>
    simp only [exec, execAvail] at h
    rcases withImpl_eq (encode (.avail impl)) impl s (.next (s.setResult (if Sys2Proof.avail impl then 1 else 0)))
      with ⟨-, e⟩ | ⟨-, e⟩ <;> rw [e] at h
    · exact .inl ⟨.reservedImpl, 0, fun _ => rfl, by simpa using h.symm⟩
    · exact .inr (.inl ⟨by simp [opOf], if Sys2Proof.avail impl then 1 else 0, by split <;> decide,
        by simpa using h.symm⟩)
  | engnew var impl =>
    simp only [exec, execEngnew] at h
    rcases withVariant_eq (encode (.engnew var impl)) var s (fun v =>
      withImpl (encode (.engnew var impl)) impl s (.next (s.setEng (engWord impl (familyOf v)))))
      with ⟨-, e⟩ | ⟨v, -, -, e⟩ <;> rw [e] at h
    · exact .inl ⟨.reservedVariant, 0, fun _ => rfl, by simpa using h.symm⟩
    · rcases withImpl_eq (encode (.engnew var impl)) impl s (.next (s.setEng (engWord impl (familyOf v))))
        with ⟨-, e'⟩ | ⟨rfl, e'⟩ <;> rw [e'] at h
      · exact .inl ⟨.reservedImpl, 0, fun _ => rfl, by simpa using h.symm⟩
      · exact .inr (.inr (.inl ⟨rfl, v, by simpa using h.symm⟩))
  | engref var impl =>
    simp only [exec, execEngref] at h
    rcases withVariant_eq (encode (.engref var impl)) var s (fun v =>
      withImpl (encode (.engref var impl)) impl s
        (.next ((s.setEng (engWord impl (familyOf v))).setResult (singletonId impl (familyOf v)))))
      with ⟨-, e⟩ | ⟨v, -, -, e⟩ <;> rw [e] at h
    · exact .inl ⟨.reservedVariant, 0, fun _ => rfl, by simpa using h.symm⟩
    · rcases withImpl_eq (encode (.engref var impl)) impl s
        (.next ((s.setEng (engWord impl (familyOf v))).setResult (singletonId impl (familyOf v))))
        with ⟨-, e'⟩ | ⟨rfl, e'⟩ <;> rw [e'] at h
      · exact .inl ⟨.reservedImpl, 0, fun _ => rfl, by simpa using h.symm⟩
      · exact .inr (.inr (.inr (.inl ⟨rfl, v, by simpa using h.symm⟩)))
  | ldiv var =>
    simp only [exec, execLdiv] at h
    rcases withVariant_eq (encode (.ldiv var)) var s (loadIv (encode (.ldiv var)) s)
      with ⟨-, e⟩ | ⟨v, hv, -, e⟩ <;> rw [e] at h
    · exact .inl ⟨.reservedVariant, 0, fun _ => rfl, by simpa using h.symm⟩
    · unfold loadIv at h
      split at h
      · rename_i ha
        refine .inr (.inr (.inr (.inr ⟨by simp [opOf], ivBytes s.stateOrder v, ?_, ?_, ?_, by simpa using h.symm⟩)))
        · cases v <;> simp [stateLen]
        · simpa using admit_le ha
        · simp [memWrites, hv, ha]
      · exact .inl ⟨.busError, _, fun h => absurd rfl h, by simpa using h.symm⟩
  | compress =>
    simp only [exec, execCompress] at h
    split at h
    · rename_i hc; exact .inl ⟨_, _, compressCheck_raise hc, by simpa using h.symm⟩
    · simp at h
    · rename_i f hc
      have hr := compressCheck_run hc
      refine .inr (.inr (.inr (.inr ⟨by simp [opOf], compressBytes s f, ?_, ?_, ?_, by simpa using h.symm⟩)))
      · cases f <;> simp [familyStateLen]
      · simpa using admit_le hr.2.2.2.1
      · simp [memWrites, hc, State.stateSpan]

/-- A command is never refused. -/
theorem exec_not_refused (i : Instr) (s : State) (r : Refusal) : exec i s ≠ .refused r := by
  cases i <;> simp only [exec, execQblk, execQstl, execQdgl, execQpdl, query, execFast, execFastrt, execAvail,
    execEngnew, execEngref, execLdiv, loadIv, execCompress, withVariant, withImpl, ne_eq] <;>
    repeat' split
  all_goals simp

/-! ## A word written to CMD -/

/-- Everything a word written to CMD can answer. -/
theorem runCommand_cases {c : Word} {s t : State} (h : runCommand c s = .next t) :
    (s.blk.faulted = true ∧ t = s)
      ∨ (s.blk.faulted = false ∧ (∃ e, decode c = .error e) ∧ t = s.raiseFault c .illegalCmd 0)
      ∨ (s.blk.faulted = false ∧ ∃ i, decode c = .ok i ∧ exec i s = .next t) := by
  unfold runCommand at h
  split at h
  · rename_i hf; exact .inl ⟨hf, by simpa using h.symm⟩
  · rename_i hf
    have hf : s.blk.faulted = false := by simpa using hf
    split at h
    · rename_i e he; exact .inr (.inl ⟨hf, ⟨e, he⟩, by simpa using h.symm⟩)
    · rename_i i hi; exact .inr (.inr ⟨hf, i, hi, h⟩)

/-! ## The selection of an instance (R20, R38) -/

theorem takeBlock_perm {a : Nat} {bs : List Block} {b : Block} {rest : List Block}
    (h : takeBlock a bs = some (b, rest)) : b.decodes a = true ∧ (b :: rest).Perm bs := by
  induction bs generalizing b rest with
  | nil => simp [takeBlock] at h
  | cons x xs ih =>
    unfold takeBlock at h
    split at h
    · rename_i hx
      simp only [Option.some.injEq, Prod.mk.injEq] at h
      obtain ⟨rfl, rfl⟩ := h
      exact ⟨hx, List.Perm.refl _⟩
    · split at h
      · simp at h
      · rename_i y r hy
        simp only [Option.some.injEq, Prod.mk.injEq] at h
        obtain ⟨rfl, rfl⟩ := h
        obtain ⟨h1, h2⟩ := ih hy
        exact ⟨h1, (List.Perm.swap x y r).trans (h2.cons x)⟩

/-- No instance is taken out exactly when no window of the list holds the address. -/
theorem takeBlock_none {a : Nat} {bs : List Block} : takeBlock a bs = none ↔ ∀ b ∈ bs, b.decodes a = false := by
  induction bs with
  | nil => simp [takeBlock]
  | cons x xs ih =>
    unfold takeBlock
    cases hx : x.decodes a <;> cases ht : takeBlock a xs <;> simp_all

/-- Nothing is selected exactly when no instance's window holds the address. -/
theorem select_none {s : State} {a : Addr} :
    s.select a = none ↔ ∀ b ∈ s.blk :: s.others, b.decodes a.toNat = false := by
  unfold State.select
  rw [List.forall_mem_cons, ← takeBlock_none]
  cases s.blk.decodes a.toNat <;> cases takeBlock a.toNat s.others <;> simp

/-- Everything the selection can answer: the machine with another instance addressed, no instance lost, and
nothing else changed. -/
theorem select_some {s t : State} {a : Addr} (h : s.select a = some t) :
    t.blk.decodes a.toNat = true ∧ (t.blk :: t.others).Perm (s.blk :: s.others)
      ∧ t = { s with blk := t.blk, others := t.others } := by
  unfold State.select at h
  split at h
  · rename_i hd
    simp only [Option.some.injEq] at h
    subst h
    exact ⟨hd, List.Perm.refl _, rfl⟩
  · split at h
    · simp at h
    · rename_i b rest hb
      simp only [Option.some.injEq] at h
      subst h
      obtain ⟨h1, h2⟩ := takeBlock_perm hb
      exact ⟨h1, (List.Perm.swap _ _ _).trans (h2.cons _), rfl⟩

/-- The addressed instance stays addressed when its own window is accessed. -/
theorem select_self {s : State} {a : Addr} (h : s.blk.decodes a.toNat = true) : s.select a = some s := by
  simp [State.select, h]

end Sys2Proof.Machine
end

