-- ==== Sys2Proof/Laws/PerInstr.lean ====
section
/-! SUPPORT. Statements about every command as syntax, one lemma for each constructor. -/

namespace Sys2Proof.Laws

/-! ## EncodedFields: the fields of a command's word (R81, R84) -/

/-- The word of a command holds its OP, its VAR and its IMPL in their places, and 0 in the reserved bits. -/
def EncodedFields.Statement (i : Instr) : Prop :=
  opField (encode i) = opCode (opOf i) ∧ varField (encode i) = varOf i ∧ implField (encode i) = implOf i
    ∧ reserved11 (encode i) = 0 ∧ reservedHigh (encode i) = 0

theorem EncodedFields.qblk (var : BitVec 3) : EncodedFields.Statement (.qblk var) := by
  revert var; unfold EncodedFields.Statement; decide

theorem EncodedFields.qstl (var : BitVec 3) : EncodedFields.Statement (.qstl var) := by
  revert var; unfold EncodedFields.Statement; decide

theorem EncodedFields.qdgl (var : BitVec 3) : EncodedFields.Statement (.qdgl var) := by
  revert var; unfold EncodedFields.Statement; decide

theorem EncodedFields.qpdl (var : BitVec 3) : EncodedFields.Statement (.qpdl var) := by
  revert var; unfold EncodedFields.Statement; decide

theorem EncodedFields.ldiv (var : BitVec 3) : EncodedFields.Statement (.ldiv var) := by
  revert var; unfold EncodedFields.Statement; decide

theorem EncodedFields.fast : EncodedFields.Statement .fast := by unfold EncodedFields.Statement; decide

theorem EncodedFields.fastrt : EncodedFields.Statement .fastrt := by unfold EncodedFields.Statement; decide

theorem EncodedFields.avail (impl : BitVec 4) : EncodedFields.Statement (.avail impl) := by
  revert impl; unfold EncodedFields.Statement; decide

theorem EncodedFields.engnew (var : BitVec 3) (impl : BitVec 4) : EncodedFields.Statement (.engnew var impl) := by
  revert var impl; unfold EncodedFields.Statement; decide

theorem EncodedFields.engref (var : BitVec 3) (impl : BitVec 4) : EncodedFields.Statement (.engref var impl) := by
  revert var impl; unfold EncodedFields.Statement; decide

theorem EncodedFields.compress : EncodedFields.Statement .compress := by unfold EncodedFields.Statement; decide

end Sys2Proof.Laws
end

