-- ==== Sys2Proof/Laws/Steps.lean ====
section
/-! SUPPORT. What one input from outside can do: the register an access reaches, a host write of it, a race and a
reset during a command, and from these everything a step can answer. -/

namespace Sys2Proof.Machine

/-! ## The register an access reaches (R20, R22) -/

/-- A register's own offset names it. -/
@[simp] theorem regAt_regOffset (r : Reg) : regAt? (regOffset r) = some r := by cases r <;> rfl

/-- The register at an offset stands at that offset. -/
theorem regOffset_of_regAt {off : Nat} {r : Reg} (h : regAt? off = some r) : regOffset r = off := by
  unfold regAt? at h
  split at h <;> simp_all <;> (subst h; rfl)

/-- An aligned 32-bit access at an offset of an aligned window reaches the register there. -/
theorem accessReg_offset {a : Addr} {b : Block} {off : Nat} (hb : b.base.toNat % 64 = 0)
    (ha : a.toNat = b.base.toNat + off) (h4 : off % 4 = 0) :
    accessReg .w32 a b = (regAt? off).elim (.error .accessReserved) .ok := by
  unfold accessReg
  rw [if_neg (by simp), if_neg (by omega), ha, Nat.add_sub_cancel_left]
  cases regAt? off <;> rfl

/-! ## A host write of a register -/

/-- Everything a host write of a register can answer. -/
theorem writeReg_cases {r : Reg} {v : Word} {s t : State} (h : writeReg r v s = .next t) :
    (r = .CMD ∧ runCommand v s = .next t)
      ∨ (∃ x, t = s.setStateAddr x) ∨ (∃ x, t = s.setBlockAddr x) ∨ t = s := by
  cases r <;> simp only [writeReg, Host.Outcome.next.injEq] at h
  · exact .inl ⟨rfl, h⟩
  all_goals first
    | exact .inr (.inr (.inr h.symm))
    | exact .inr (.inl ⟨_, h.symm⟩)
    | exact .inr (.inr (.inl ⟨_, h.symm⟩))

/-! ## Draws -/

/-- Drawing ranges writes memory and counts; nothing else. -/
theorem drawSpans_frame (rs : List Span) (s : State) :
    rs.foldl State.drawSpan s
      = { s with mem := (rs.foldl State.drawSpan s).mem, draws := (rs.foldl State.drawSpan s).draws } := by
  induction rs generalizing s with
  | nil => rfl
  | cons r rs ih => rw [List.foldl_cons, ih (s.drawSpan r)]; rfl

/-- Drawing ranges leaves the bytes outside them. -/
theorem drawSpans_outside {rs : List Span} {a : Nat} (h : spansHave rs a = false) (s : State) :
    readByte (rs.foldl State.drawSpan s).mem a = readByte s.mem a := by
  induction rs generalizing s with
  | nil => rfl
  | cons r rs ih =>
    rw [spansHave_cons, Bool.or_eq_false_iff] at h
    rw [List.foldl_cons, ih h.2, State.drawSpan_mem]
    exact readByte_writeBytes_outside _ (by simpa [Span.has_false_iff] using h.1)

/-- Drawing ranges below `2^64` keeps the canonical form. -/
theorem drawSpans_wf {rs : List Span} {s : State} (hr : ∀ r ∈ rs, r.base + r.len ≤ addrSpace)
    (h : s.mem.wf = true) : (rs.foldl State.drawSpan s).mem.wf = true := by
  induction rs generalizing s with
  | nil => exact h
  | cons r rs ih =>
    exact ih (fun q hq => hr q (List.mem_cons_of_mem _ hq))
      (wf_writeBytes _ (by simpa using hr r (by simp)) h)

/-- The ranges a command writes do not pass the top of the address space. -/
theorem memWrites_le {i : Instr} {s : State} {r : Span} (h : r ∈ memWrites i s) : r.base + r.len ≤ addrSpace := by
  cases i <;> simp only [memWrites, List.not_mem_nil] at h
  · split at h
    · split at h
      · rename_i ha
        simp only [List.mem_singleton] at h
        subst h
        exact admit_le ha
      · simp at h
    · simp at h
  · split at h
    · rename_i f hf
      simp only [List.mem_singleton] at h
      subst h
      exact admit_le (compressCheck_run hf).2.2.2.1
    · simp at h

/-- The ranges a command word writes do not pass the top of the address space. -/
theorem wordWrites_le {c : Word} {s : State} {r : Span} (h : r ∈ wordWrites c s) : r.base + r.len ≤ addrSpace := by
  unfold wordWrites at h
  split at h
  · simp at h
  · exact memWrites_le h

/-! ## Races (R63) -/

/-- The other agents' accesses change memory, what they were given back, and the count of draws. -/
theorem otherEffects_frame (ws : List Span) (os : List OtherAccess) (s : State) :
    os.foldl (otherEffect ws) s
      = { s with mem := (os.foldl (otherEffect ws) s).mem, observed := (os.foldl (otherEffect ws) s).observed,
                 draws := (os.foldl (otherEffect ws) s).draws } := by
  induction os generalizing s with
  | nil => rfl
  | cons o os ih =>
    rw [List.foldl_cons, ih]
    cases o <;> simp only [otherEffect]
    · split <;> rfl
    · rfl
    · rfl

/-- A byte that no other agent stores to keeps its value. -/
theorem otherEffects_outside {ws : List Span} {os : List OtherAccess} {a : Nat}
    (h : ∀ y v, OtherAccess.write y v ∈ os ∨ OtherAccess.lateStore y v ∈ os → y.toNat ≠ a) (s : State) :
    readByte (os.foldl (otherEffect ws) s).mem a = readByte s.mem a := by
  induction os generalizing s with
  | nil => rfl
  | cons o os ih =>
    have hrest := ih fun y v hy => h y v (by rcases hy with hy | hy <;> simp [hy])
    rw [List.foldl_cons, hrest]
    cases o with
    | read y => simp only [otherEffect]; split <;> rfl
    | write y v =>
      have := h y v (by simp)
      exact readByte_writeByte_ne v (by omega)
    | lateStore y v =>
      have := h y v (by simp)
      exact readByte_writeByte_ne v (by omega)

/-- The other agents' accesses keep the canonical form. -/
theorem otherEffects_wf (ws : List Span) (os : List OtherAccess) {s : State} (h : s.mem.wf = true) :
    (os.foldl (otherEffect ws) s).mem.wf = true := by
  induction os generalizing s with
  | nil => exact h
  | cons o os ih =>
    refine ih ?_
    cases o with
    | read y => simp only [otherEffect]; split <;> exact h
    | write y v => exact wf_writeByte v y.isLt h
    | lateStore y v => exact wf_writeByte v y.isLt h

/-- The end of a race changes memory, what was given back, and the count of draws. -/
theorem settleRace_frame (rs ws : List Span) (os : List OtherAccess) (s : State) :
    settleRace rs ws os s
      = { s with mem := (settleRace rs ws os s).mem, observed := (settleRace rs ws os s).observed,
                 draws := (settleRace rs ws os s).draws } := by
  unfold settleRace
  simp only
  split
  · rw [drawSpans_frame, otherEffects_frame]
  · exact otherEffects_frame ws os s

/-- A byte that the command does not write and no other agent stores to keeps its value. -/
theorem settleRace_outside {rs ws : List Span} {os : List OtherAccess} {a : Nat} (hw : spansHave ws a = false)
    (h : ∀ y v, OtherAccess.write y v ∈ os ∨ OtherAccess.lateStore y v ∈ os → y.toNat ≠ a) (s : State) :
    readByte (settleRace rs ws os s).mem a = readByte s.mem a := by
  unfold settleRace
  simp only
  split
  · rw [drawSpans_outside hw, otherEffects_outside h]
  · exact otherEffects_outside h s

/-! ## Everything a step can do -/

/-- Everything a step can answer. Either nothing was asked; or some instance is addressed, and then: a word was
written to its CMD and ran (alone, or settled with what other agents did); or an address register was replaced;
or it was reset (after draws, when a command was abandoned); or nothing changed but what is given back; or
host memory was stored to. -/
theorem step_cases {s t : State} (h : step s = .next t) :
    (s.host = [] ∧ t = s)
    ∨ ∃ e rest, s.host = e :: rest ∧
      ((∃ u, { s with host := rest }.select (match e with
            | .write _ a _ | .read _ a | .reset a | .racing a _ _ | .resetDuring a _ | .store a _ | .load a _ => a)
              = some u
          ∧ ((∃ w a v, e = .write w a v ∧
                (runCommand v u = .next t ∨ (∃ x, t = u.setStateAddr x) ∨ (∃ x, t = u.setBlockAddr x) ∨ t = u))
            ∨ (∃ w a o, e = .read w a ∧ t = u.observe o)
            ∨ (∃ a, e = .reset a ∧ t = u.resetBlk)
            ∨ (∃ a c, e = .resetDuring a c ∧ t = ((wordWrites c u).foldl State.drawSpan u).resetBlk)
            ∨ (∃ a c os x, e = .racing a c os ∧ runCommand c u = .next x
                ∧ t = settleRace (wordReads c u) (wordWrites c u) os x)))
        ∨ (∃ a bs, e = .store a bs ∧ a.toNat + bs.length ≤ addrSpace
            ∧ t = { s with host := rest }.memWrite a.toNat bs)
        ∨ (∃ a n o, e = .load a n ∧ t = { s with host := rest }.observe o)) := by
  unfold step at h
  split at h
  · rename_i hh; exact .inl ⟨hh, by simpa using h.symm⟩
  rename_i e rest hh
  refine .inr ⟨e, rest, hh, ?_⟩
  cases e with
  | write w a v =>
    simp only [hostEvent, windowWrite] at h
    split at h
    · simp at h
    rename_i u hu
    split at h
    · simp at h
    exact .inl ⟨u, hu, .inl ⟨w, a, v, rfl, (writeReg_cases h).imp (·.2) id⟩⟩
  | read w a =>
    simp only [hostEvent, windowRead] at h
    split at h
    · simp at h
    rename_i u hu
    split at h
    · simp at h
    exact .inl ⟨u, hu, .inr (.inl ⟨w, a, _, rfl, by simpa using h.symm⟩)⟩
  | store a bs =>
    simp only [hostEvent, hostStore, memoryRefusal] at h
    split at h
    · simp at h
    rename_i hr
    refine .inr (.inl ⟨a, bs, rfl, ?_, by simpa using h.symm⟩)
    by_contra hlt
    rw [if_pos (by omega)] at hr
    simp at hr
  | load a n =>
    simp only [hostEvent, hostLoad] at h
    split at h
    · simp at h
    exact .inr (.inr ⟨a, n, _, rfl, by simpa using h.symm⟩)
  | reset a =>
    simp only [hostEvent, resetEvent] at h
    split at h
    · simp at h
    rename_i u hu
    exact .inl ⟨u, hu, .inr (.inr (.inl ⟨a, rfl, by simpa using h.symm⟩))⟩
  | racing a c os =>
    simp only [hostEvent, racingCommand] at h
    split at h
    · simp at h
    rename_i u hu
    split at h
    · simp at h
    split at h
    · rename_i x hx
      exact .inl ⟨u, hu, .inr (.inr (.inr (.inr ⟨a, c, os, x, rfl, hx, by simpa using h.symm⟩)))⟩
    · simp at h
    · simp at h
  | resetDuring a c =>
    simp only [hostEvent, abandonedCommand] at h
    split at h
    · simp at h
    rename_i u hu
    exact .inl ⟨u, hu, .inr (.inr (.inr (.inl ⟨a, c, rfl, by simpa using h.symm⟩)))⟩

/-! ## Several steps -/

@[simp] theorem runSteps_zero (s : State) : runSteps 0 s = .next s := rfl

/-- A step that is taken is the first of the run. -/
theorem runSteps_succ {k : Nat} {s t : State} (h : step s = .next t) : runSteps (k + 1) s = runSteps k t := by
  rw [runSteps, h]

/-- A run is cut anywhere. -/
theorem runSteps_add {j k : Nat} {s t : State} (h : runSteps j s = .next t) :
    runSteps (j + k) s = runSteps k t := by
  induction j generalizing s with
  | zero => rw [runSteps, Host.Outcome.next.injEq] at h; rw [h, Nat.zero_add]
  | succ j ih =>
    rw [show j + 1 + k = j + k + 1 by omega]
    cases hs : step s with
    | next u =>
      rw [runSteps_succ hs] at h ⊢
      exact ih h
    | fault f => rw [runSteps, hs] at h; simp at h
    | refused r => rw [runSteps, hs] at h; simp at h

end Sys2Proof.Machine
end

