-- ==== Sys2Proof/Tests/Slice0.lean ====
section
/-! SUPPORT. The model's own tests. Every expected value is taken from spec/95_test_vectors.md or worked out by hand from
the rule named; the last part shows, for every statement with hypotheses, a concrete case that meets them. -/

-- Each test is checked in turn, so that the whole file keeps to few threads.
set_option Elab.async false

open Sys2Proof Sys2Proof.Machine Sys2Proof.Claims

namespace Sys2Proof.Tests

/-! ## Small states -/

/-- The start state of spec/95_test_vectors.md section 9, with the two address registers set. -/
def at2 (stateAddr blockAddr : Addr) : State :=
  { State.reset with blk := { Block.atReset 0 with stateAddr := stateAddr, blockAddr := blockAddr } }

/-- The same, bound, with a RESULT that no query of this test writes. -/
def boundAt (eng : Word) (stateAddr blockAddr : Addr) : State :=
  { State.reset with blk := { Block.atReset 0 with
      result := 0x14, eng := eng, stateAddr := stateAddr, blockAddr := blockAddr } }

/-- The registers after an answer, if it is a next state. -/
def blkOf : Answer → Option Block
  | .next t => some t.blk
  | _ => none

/-- Bytes of memory after an answer, if it is a next state. -/
def memOf (a : Answer) (addr n : Nat) : Option (List Byte) :=
  match a with
  | .next t => some (readBytes t.mem addr n)
  | _ => none

/-- What was last given back after an answer. -/
def lastSeen : Answer → Option Observation
  | .next t => t.observed.head?
  | _ => none

/-- A faulted start state. -/
def faultedState : State :=
  { State.reset with blk := { Block.atReset 0 with status := 0x00000401, fcmd := 0x0000000B, stateAddr := 0x1000 } }

/-! ## WellFormed: an ill-formed command for each check -/

theorem test_wf_var : Instr.wf (.qblk 7) = false ∧ Instr.wf (.qstl 7) = false ∧ Instr.wf (.qdgl 7) = false
    ∧ Instr.wf (.qpdl 7) = false ∧ Instr.wf (.ldiv 7) = false := by decide
theorem test_wf_impl : Instr.wf (.avail 1) = false ∧ Instr.wf (.avail 15) = false := by decide
theorem test_wf_binding : Instr.wf (.engnew 7 0) = false ∧ Instr.wf (.engnew 0 1) = false
    ∧ Instr.wf (.engref 7 0) = false ∧ Instr.wf (.engref 6 15) = false := by decide
theorem test_wf_good : Instr.wf (.qblk 6) = true ∧ Instr.wf .fast = true ∧ Instr.wf .fastrt = true
    ∧ Instr.wf (.avail 0) = true ∧ Instr.wf (.engref 6 0) = true ∧ Instr.wf .compress = true := by decide

/-! ## Decode: words written out from R81 and R84: reserved 16, IMPL 4, reserved 1, VAR 3, OP 8 -/

theorem test_decode_qblk : decode 0b0000000000000000_0000_0_011_00000001 = .ok (.qblk 3) := by decide
theorem test_decode_qstl : decode 0b0000000000000000_0000_0_101_00000010 = .ok (.qstl 5) := by decide
theorem test_decode_qdgl : decode 0b0000000000000000_0000_0_001_00000011 = .ok (.qdgl 1) := by decide
theorem test_decode_qpdl : decode 0b0000000000000000_0000_0_111_00000100 = .ok (.qpdl 7) := by decide
theorem test_decode_ldiv : decode 0b0000000000000000_0000_0_110_00000101 = .ok (.ldiv 6) := by decide
theorem test_decode_fast : decode 0b0000000000000000_0000_0_000_00000110 = .ok .fast := by decide
theorem test_decode_fastrt : decode 0b0000000000000000_0000_0_000_00000111 = .ok .fastrt := by decide
theorem test_decode_avail : decode 0b0000000000000000_1001_0_000_00001000 = .ok (.avail 9) := by decide
theorem test_decode_engnew : decode 0b0000000000000000_0010_0_010_00001001 = .ok (.engnew 2 2) := by decide
theorem test_decode_engref : decode 0b0000000000000000_0001_0_111_00001010 = .ok (.engref 7 1) := by decide
theorem test_decode_compress : decode 0b0000000000000000_0000_0_000_00001011 = .ok .compress := by decide

/-- X1 to X9: words of no row, each rejected by name. -/
theorem test_decode_rejects :
    decode 0x00000000 = .error .reservedOp ∧ decode 0x0000000C = .error .reservedOp
    ∧ decode 0x000000FF = .error .reservedOp ∧ decode 0x00000801 = .error .reservedBits
    ∧ decode 0x00010001 = .error .reservedBits ∧ decode 0x80000002 = .error .reservedBits
    ∧ decode 0x0000010B = .error .varUnused ∧ decode 0x0000100B = .error .implUnused
    ∧ decode 0x00000108 = .error .varUnused ∧ decode 0x00001001 = .error .implUnused := by decide

theorem test_encode_words : encode (.engnew 2 2) = 0x00002209 ∧ encode (.engref 7 1) = 0x0000170A
    ∧ encode (.ldiv 2) = 0x00000205 ∧ encode (.avail 1) = 0x00001008 := by decide

/-- The notation of R89, with the examples of spec/95_test_vectors.md section 4. -/
theorem test_asm_text : asmText (.engref 5 0) = "ENGREF SHA512_224, GENERIC" ∧ asmText (.engnew 2 2) = "ENGNEW SHA256, #2"
    ∧ asmText (.engref 7 1) = "ENGREF #7, #1" ∧ asmText (.avail 1) = "AVAIL #1" ∧ asmText .compress = "COMPRESS" := by
  decide +kernel

/-- A table word is run as the first command after reset: X22's LDIV SHA256 with STATE_ADDR = 0. -/
theorem test_first_command : decodeTableWord 32 0x205 = some (.ldiv 2)
    ∧ blkOf (step (State.reset.withFetchWord 32 0x205))
      = some { Block.atReset 0 with status := 0x00000601, fcmd := 0x00000205 } := by decide +kernel

/-! ## Queries (section 2) -/


theorem test_qblk : blkOf (exec (.qblk 2) (boundAt 0x80000001 0x1000 0x1100))
      = some { (boundAt 0x80000001 0x1000 0x1100).blk with result := 64 }
    ∧ blkOf (exec (.qblk 3) (boundAt 0 0 0)) = some { (boundAt 0 0 0).blk with result := 128 } := by decide

theorem test_qstl : blkOf (exec (.qstl 0) (boundAt 0x80000001 0x1000 0x1100))
      = some { (boundAt 0x80000001 0x1000 0x1100).blk with result := 20 }
    ∧ blkOf (exec (.qstl 5) (boundAt 0 0 0)) = some { (boundAt 0 0 0).blk with result := 64 } := by decide

theorem test_qdgl : blkOf (exec (.qdgl 1) (boundAt 0x80000001 0x1000 0x1100))
      = some { (boundAt 0x80000001 0x1000 0x1100).blk with result := 28 }
    ∧ blkOf (exec (.qdgl 3) (boundAt 0 0 0)) = some { (boundAt 0 0 0).blk with result := 48 } := by decide

theorem test_qpdl : blkOf (exec (.qpdl 2) (boundAt 0x80000001 0x1000 0x1100))
      = some { (boundAt 0x80000001 0x1000 0x1100).blk with result := 8 }
    ∧ blkOf (exec (.qpdl 6) (boundAt 0 0 0)) = some { (boundAt 0 0 0).blk with result := 16 } := by decide

theorem test_query_variant7 : blkOf (exec (.qblk 7) (boundAt 0x80000001 0x1000 0x1100))
    = some { (boundAt 0x80000001 0x1000 0x1100).blk with status := 0x00000201, fcmd := 0x00000701 } := by decide

/-! ## LDIV (section 3) -/

/-- The images of section 3, STATE_ORDER = LE. -/
theorem test_ldiv_images :

    memOf (exec (.ldiv 0) (at2 0x1000 0)) 0x1000 20 = some
    [0x01, 0x23, 0x45, 0x67, 0x89, 0xab, 0xcd, 0xef, 0xfe, 0xdc, 0xba, 0x98, 0x76, 0x54, 0x32, 0x10,
     0xf0, 0xe1, 0xd2, 0xc3]
    ∧ memOf (exec (.ldiv 1) (at2 0x1000 0)) 0x1000 32 = some
    [0xd8, 0x9e, 0x05, 0xc1, 0x07, 0xd5, 0x7c, 0x36, 0x17, 0xdd, 0x70, 0x30, 0x39, 0x59, 0x0e, 0xf7,
     0x31, 0x0b, 0xc0, 0xff, 0x11, 0x15, 0x58, 0x68, 0xa7, 0x8f, 0xf9, 0x64, 0xa4, 0x4f, 0xfa, 0xbe]
    ∧ memOf (exec (.ldiv 2) (at2 0x1000 0)) 0x1000 32 = some
    [0x67, 0xe6, 0x09, 0x6a, 0x85, 0xae, 0x67, 0xbb, 0x72, 0xf3, 0x6e, 0x3c, 0x3a, 0xf5, 0x4f, 0xa5,
     0x7f, 0x52, 0x0e, 0x51, 0x8c, 0x68, 0x05, 0x9b, 0xab, 0xd9, 0x83, 0x1f, 0x19, 0xcd, 0xe0, 0x5b]
    ∧ memOf (exec (.ldiv 3) (at2 0x1000 0)) 0x1000 64 = some
    [0xd8, 0x9e, 0x05, 0xc1, 0x5d, 0x9d, 0xbb, 0xcb, 0x07, 0xd5, 0x7c, 0x36, 0x2a, 0x29, 0x9a, 0x62,
     0x17, 0xdd, 0x70, 0x30, 0x5a, 0x01, 0x59, 0x91, 0x39, 0x59, 0x0e, 0xf7, 0xd8, 0xec, 0x2f, 0x15,
     0x31, 0x0b, 0xc0, 0xff, 0x67, 0x26, 0x33, 0x67, 0x11, 0x15, 0x58, 0x68, 0x87, 0x4a, 0xb4, 0x8e,
     0xa7, 0x8f, 0xf9, 0x64, 0x0d, 0x2e, 0x0c, 0xdb, 0xa4, 0x4f, 0xfa, 0xbe, 0x1d, 0x48, 0xb5, 0x47]
    ∧ memOf (exec (.ldiv 4) (at2 0x1000 0)) 0x1000 64 = some
    [0x08, 0xc9, 0xbc, 0xf3, 0x67, 0xe6, 0x09, 0x6a, 0x3b, 0xa7, 0xca, 0x84, 0x85, 0xae, 0x67, 0xbb,
     0x2b, 0xf8, 0x94, 0xfe, 0x72, 0xf3, 0x6e, 0x3c, 0xf1, 0x36, 0x1d, 0x5f, 0x3a, 0xf5, 0x4f, 0xa5,
     0xd1, 0x82, 0xe6, 0xad, 0x7f, 0x52, 0x0e, 0x51, 0x1f, 0x6c, 0x3e, 0x2b, 0x8c, 0x68, 0x05, 0x9b,
     0x6b, 0xbd, 0x41, 0xfb, 0xab, 0xd9, 0x83, 0x1f, 0x79, 0x21, 0x7e, 0x13, 0x19, 0xcd, 0xe0, 0x5b]
    ∧ memOf (exec (.ldiv 5) (at2 0x1000 0)) 0x1000 64 = some
    [0xa2, 0x4d, 0x54, 0x19, 0xc8, 0x37, 0x3d, 0x8c, 0xd6, 0xd4, 0xdc, 0x89, 0x66, 0x99, 0xe1, 0x73,
     0x82, 0x9c, 0xff, 0x32, 0xae, 0xb7, 0xfa, 0x1d, 0xcf, 0x9f, 0x2f, 0x58, 0x14, 0xd5, 0x9d, 0x67,
     0xa8, 0x4d, 0xd4, 0x7b, 0x69, 0x2b, 0x6d, 0x0f, 0x42, 0x89, 0xc4, 0x04, 0x73, 0x6f, 0xe3, 0x77,
     0xc8, 0x36, 0x1d, 0x6a, 0xa8, 0x85, 0x9d, 0x3f, 0xa1, 0x92, 0xd6, 0x91, 0xad, 0xe6, 0x12, 0x11]
    ∧ memOf (exec (.ldiv 6) (at2 0x1000 0)) 0x1000 64 = some
    [0x2c, 0xf7, 0x2b, 0xfc, 0x94, 0x21, 0x31, 0x22, 0xc2, 0x64, 0x4c, 0xc8, 0xa3, 0x5f, 0x55, 0x9f,
     0x51, 0xb1, 0x53, 0x6f, 0x6b, 0xb8, 0x93, 0x23, 0xbd, 0xea, 0x40, 0x59, 0x19, 0x77, 0x38, 0x96,
     0xe3, 0xff, 0x8e, 0xa8, 0xe2, 0x3e, 0x28, 0x96, 0x92, 0x39, 0x86, 0x53, 0x25, 0x1e, 0x5e, 0xbe,
     0xaa, 0xb8, 0x85, 0x2c, 0xfc, 0x99, 0x01, 0x2b, 0xa2, 0x2c, 0xc5, 0x81, 0xdc, 0x2d, 0xb7, 0x0e] := by decide +kernel

/-- The image of section 3, STATE_ORDER = BE; one byte past the region is untouched. -/
theorem test_ldiv_be : memOf (exec (.ldiv 0) { at2 0x1000 0 with stateOrder := .BE }) 0x1000 21 = some
    [0x67, 0x45, 0x23, 0x01, 0xef, 0xcd, 0xab, 0x89, 0x98, 0xba, 0xdc, 0xfe, 0x10, 0x32, 0x54, 0x76,
     0xc3, 0xd2, 0xe1, 0xf0, 0x00] := by decide +kernel

/-- The corner case of section 3: a region one byte below admitted memory; R120 writes nothing. -/
theorem test_ldiv_bus_error : blkOf (exec (.ldiv 0) (at2 0x0FFF 0))
      = some { (at2 0x0FFF 0).blk with status := 0x00000601, fcmd := 0x00000005, faddr := 0x0FFF }
    ∧ memOf (exec (.ldiv 0) (at2 0x0FFF 0)) 0x0FFF 20 = some (List.replicate 20 0) := by decide +kernel

/-! ## Selector and binding (section 4) -/

theorem test_fast : blkOf (exec .fast (boundAt 0x80000002 0 0)) = some { (boundAt 0x80000002 0 0).blk with result := 0 } := by
  decide
theorem test_fastrt : blkOf (exec .fastrt (boundAt 0x80000002 0 0))
    = some { (boundAt 0x80000002 0 0).blk with result := 0 } := by decide

/-- S3 and S4. -/
theorem test_avail : blkOf (exec (.avail 0) (boundAt 0 0 0)) = some { (boundAt 0 0 0).blk with result := 1 }
    ∧ blkOf (exec (.avail 1) (boundAt 0 0 0))
      = some { (boundAt 0 0 0).blk with status := 0x00000301, fcmd := 0x00001008 } := by decide

/-- S6, S8 and S12. -/
theorem test_engref : blkOf (exec (.engref 0 0) (boundAt 0 0 0))
      = some { (boundAt 0 0 0).blk with eng := 0x80000000, result := 0 }
    ∧ blkOf (exec (.engref 2 0) (boundAt 0 0 0)) = some { (boundAt 0 0 0).blk with eng := 0x80000001, result := 1 }
    ∧ blkOf (exec (.engref 6 0) (boundAt 0 0 0)) = some { (boundAt 0 0 0).blk with eng := 0x80000002, result := 2 } := by
  decide

/-- S22: RESERVED_VARIANT comes before RESERVED_IMPL. -/
theorem test_engref_order : blkOf (exec (.engref 7 1) (boundAt 0 0 0))
    = some { (boundAt 0 0 0).blk with status := 0x00000201, fcmd := 0x0000170A } := by decide

/-- S13, S14 and S19. -/
theorem test_engnew : blkOf (exec (.engnew 0 0) (boundAt 0 0 0)) = some { (boundAt 0 0 0).blk with eng := 0x80000000 }
    ∧ blkOf (exec (.engnew 1 0) (boundAt 0 0 0)) = some { (boundAt 0 0 0).blk with eng := 0x80000001 }
    ∧ blkOf (exec (.engnew 6 0) (boundAt 0 0 0)) = some { (boundAt 0 0 0).blk with eng := 0x80000002 } := by decide

/-- S21. -/
theorem test_engnew_impl : blkOf (exec (.engnew 2 2) (boundAt 0 0 0))
    = some { (boundAt 0 0 0).blk with status := 0x00000301, fcmd := 0x00002209 } := by decide

/-! ## The routines (section 5) -/


/-- V11. -/
theorem test_routine_v11 : sha1Compress
    [0x67452301, 0xefcdab89, 0x98badcfe, 0x10325476, 0xc3d2e1f0]
    [0x61626380, 0, 0, 0, 0, 0, 0, 0, 0, 0, 0, 0, 0, 0, 0, 0x18]
  = [0xa9993e36, 0x4706816a, 0xba3e2571, 0x7850c26c, 0x9cd0d89d] := by decide +kernel

/-- V13. -/
theorem test_routine_v13 : sha1Compress
    [0xffffffff, 0xffffffff, 0xffffffff, 0xffffffff, 0xffffffff]
    (List.replicate 16 0xFFFFFFFF)
  = [0x3f48159b, 0x2dce51fa, 0x8a1e930a, 0x02083b68, 0xef70d6e8] := by decide +kernel

/-- V21. -/
theorem test_routine_v21 : sha256Compress
    [0x6a09e667, 0xbb67ae85, 0x3c6ef372, 0xa54ff53a, 0x510e527f, 0x9b05688c, 0x1f83d9ab, 0x5be0cd19]
    [0x61626380, 0, 0, 0, 0, 0, 0, 0, 0, 0, 0, 0, 0, 0, 0, 0x18]
  = [0xba7816bf, 0x8f01cfea, 0x414140de, 0x5dae2223, 0xb00361a3, 0x96177a9c, 0xb410ff61, 0xf20015ad] := by decide +kernel

/-- V24. -/
theorem test_routine_v24 : sha256Compress
    [0xffffffff, 0xffffffff, 0xffffffff, 0xffffffff, 0xffffffff, 0xffffffff, 0xffffffff, 0xffffffff]
    (List.replicate 16 0xFFFFFFFF)
  = [0x0598127a, 0xaf11706e, 0x77401fff, 0xd730c549, 0x0b84c867, 0xa98c6ca3, 0xd7f3c0f9, 0x06a78b79] := by decide +kernel

/-- V30. -/
theorem test_routine_v30 : sha512Compress
    [0x6a09e667f3bcc908, 0xbb67ae8584caa73b, 0x3c6ef372fe94f82b, 0xa54ff53a5f1d36f1,
      0x510e527fade682d1, 0x9b05688c2b3e6c1f, 0x1f83d9abfb41bd6b, 0x5be0cd19137e2179]
    [0x6162638000000000, 0, 0, 0, 0, 0, 0, 0, 0, 0, 0, 0, 0, 0, 0, 0x18]
  = [0xddaf35a193617aba, 0xcc417349ae204131, 0x12e6fa4e89a97ea2, 0x0a9eeee64b55d39a,
      0x2192992a274fc1a8, 0x36ba3c23a3feebbd, 0x454d4423643ce80e, 0x2a9ac94fa54ca49f] := by decide +kernel

/-- V36. -/
theorem test_routine_v36 : sha512Compress
    [0xffffffffffffffff, 0xffffffffffffffff, 0xffffffffffffffff, 0xffffffffffffffff,
      0xffffffffffffffff, 0xffffffffffffffff, 0xffffffffffffffff, 0xffffffffffffffff]
    (List.replicate 16 0xFFFFFFFFFFFFFFFF)
  = [0x9b0f121696e951ee, 0x41d0b467b741e768, 0x564f41ebb3b72884, 0xf805b40fcacb5bc1,
      0x3c379cffcf02a900, 0x9b17a37f809ac554, 0x79c9fd2e1c83b6ab, 0xe948d9e252c02c7a] := by decide +kernel

/-! ## Whole messages (sections 6 and 7) -/

/-- The digests of "abc" for the seven variants. -/
theorem test_digests_abc :
    hashOf .sha1 [0x61, 0x62, 0x63] =
    [0xa9, 0x99, 0x3e, 0x36, 0x47, 0x06, 0x81, 0x6a, 0xba, 0x3e, 0x25, 0x71, 0x78, 0x50, 0xc2, 0x6c,
     0x9c, 0xd0, 0xd8, 0x9d]
    ∧ hashOf .sha224 [0x61, 0x62, 0x63] =
    [0x23, 0x09, 0x7d, 0x22, 0x34, 0x05, 0xd8, 0x22, 0x86, 0x42, 0xa4, 0x77, 0xbd, 0xa2, 0x55, 0xb3,
     0x2a, 0xad, 0xbc, 0xe4, 0xbd, 0xa0, 0xb3, 0xf7, 0xe3, 0x6c, 0x9d, 0xa7]
    ∧ hashOf .sha256 [0x61, 0x62, 0x63] =
    [0xba, 0x78, 0x16, 0xbf, 0x8f, 0x01, 0xcf, 0xea, 0x41, 0x41, 0x40, 0xde, 0x5d, 0xae, 0x22, 0x23,
     0xb0, 0x03, 0x61, 0xa3, 0x96, 0x17, 0x7a, 0x9c, 0xb4, 0x10, 0xff, 0x61, 0xf2, 0x00, 0x15, 0xad]
    ∧ hashOf .sha384 [0x61, 0x62, 0x63] =
    [0xcb, 0x00, 0x75, 0x3f, 0x45, 0xa3, 0x5e, 0x8b, 0xb5, 0xa0, 0x3d, 0x69, 0x9a, 0xc6, 0x50, 0x07,
     0x27, 0x2c, 0x32, 0xab, 0x0e, 0xde, 0xd1, 0x63, 0x1a, 0x8b, 0x60, 0x5a, 0x43, 0xff, 0x5b, 0xed,
     0x80, 0x86, 0x07, 0x2b, 0xa1, 0xe7, 0xcc, 0x23, 0x58, 0xba, 0xec, 0xa1, 0x34, 0xc8, 0x25, 0xa7]
    ∧ hashOf .sha512 [0x61, 0x62, 0x63] =
    [0xdd, 0xaf, 0x35, 0xa1, 0x93, 0x61, 0x7a, 0xba, 0xcc, 0x41, 0x73, 0x49, 0xae, 0x20, 0x41, 0x31,
     0x12, 0xe6, 0xfa, 0x4e, 0x89, 0xa9, 0x7e, 0xa2, 0x0a, 0x9e, 0xee, 0xe6, 0x4b, 0x55, 0xd3, 0x9a,
     0x21, 0x92, 0x99, 0x2a, 0x27, 0x4f, 0xc1, 0xa8, 0x36, 0xba, 0x3c, 0x23, 0xa3, 0xfe, 0xeb, 0xbd,
     0x45, 0x4d, 0x44, 0x23, 0x64, 0x3c, 0xe8, 0x0e, 0x2a, 0x9a, 0xc9, 0x4f, 0xa5, 0x4c, 0xa4, 0x9f]
    ∧ hashOf .sha512t224 [0x61, 0x62, 0x63] =
    [0x46, 0x34, 0x27, 0x0f, 0x70, 0x7b, 0x6a, 0x54, 0xda, 0xae, 0x75, 0x30, 0x46, 0x08, 0x42, 0xe2,
     0x0e, 0x37, 0xed, 0x26, 0x5c, 0xee, 0xe9, 0xa4, 0x3e, 0x89, 0x24, 0xaa]
    ∧ hashOf .sha512t256 [0x61, 0x62, 0x63] =
    [0x53, 0x04, 0x8e, 0x26, 0x81, 0x94, 0x1e, 0xf9, 0x9b, 0x2e, 0x29, 0xb7, 0x6b, 0x4c, 0x7d, 0xab,
     0xe4, 0xc2, 0xd0, 0xc6, 0x34, 0xfc, 0x6d, 0x46, 0xe0, 0xe2, 0xf1, 0x31, 0x07, 0xe7, 0xaf, 0x23] := by decide +kernel

/-- A message of two blocks: SHA-256 of the 56-byte message of section 6. -/
theorem test_digest_56 : hashOf .sha256
    [0x61, 0x62, 0x63, 0x64, 0x62, 0x63, 0x64, 0x65, 0x63, 0x64, 0x65, 0x66, 0x64, 0x65, 0x66, 0x67,
     0x65, 0x66, 0x67, 0x68, 0x66, 0x67, 0x68, 0x69, 0x67, 0x68, 0x69, 0x6a, 0x68, 0x69, 0x6a, 0x6b,
     0x69, 0x6a, 0x6b, 0x6c, 0x6a, 0x6b, 0x6c, 0x6d, 0x6b, 0x6c, 0x6d, 0x6e, 0x6c, 0x6d, 0x6e, 0x6f,
     0x6d, 0x6e, 0x6f, 0x70, 0x6e, 0x6f, 0x70, 0x71]
  = [0x24, 0x8d, 0x6a, 0x61, 0xd2, 0x06, 0x38, 0xb8, 0xe5, 0xc0, 0x26, 0x93, 0x0c, 0x3e, 0x60, 0x39,
     0xa3, 0x3c, 0xe4, 0x59, 0x64, 0xff, 0x21, 0x67, 0xf6, 0xec, 0xed, 0xd4, 0x19, 0xdb, 0x06, 0xc1] := by decide +kernel

/-- A message of two blocks: SHA-384 of the 112-byte message of section 6. -/
theorem test_digest_112 : hashOf .sha384
    [0x61, 0x62, 0x63, 0x64, 0x65, 0x66, 0x67, 0x68, 0x62, 0x63, 0x64, 0x65, 0x66, 0x67, 0x68, 0x69,
     0x63, 0x64, 0x65, 0x66, 0x67, 0x68, 0x69, 0x6a, 0x64, 0x65, 0x66, 0x67, 0x68, 0x69, 0x6a, 0x6b,
     0x65, 0x66, 0x67, 0x68, 0x69, 0x6a, 0x6b, 0x6c, 0x66, 0x67, 0x68, 0x69, 0x6a, 0x6b, 0x6c, 0x6d,
     0x67, 0x68, 0x69, 0x6a, 0x6b, 0x6c, 0x6d, 0x6e, 0x68, 0x69, 0x6a, 0x6b, 0x6c, 0x6d, 0x6e, 0x6f,
     0x69, 0x6a, 0x6b, 0x6c, 0x6d, 0x6e, 0x6f, 0x70, 0x6a, 0x6b, 0x6c, 0x6d, 0x6e, 0x6f, 0x70, 0x71,
     0x6b, 0x6c, 0x6d, 0x6e, 0x6f, 0x70, 0x71, 0x72, 0x6c, 0x6d, 0x6e, 0x6f, 0x70, 0x71, 0x72, 0x73,
     0x6d, 0x6e, 0x6f, 0x70, 0x71, 0x72, 0x73, 0x74, 0x6e, 0x6f, 0x70, 0x71, 0x72, 0x73, 0x74, 0x75]
  = [0x09, 0x33, 0x0c, 0x33, 0xf7, 0x11, 0x47, 0xe8, 0x3d, 0x19, 0x2f, 0xc7, 0x82, 0xcd, 0x1b, 0x47,
     0x53, 0x11, 0x1b, 0x17, 0x3b, 0x3b, 0x05, 0xd2, 0x2f, 0xa0, 0x80, 0x86, 0xe3, 0xb0, 0xf7, 0x12,
     0xfc, 0xc7, 0xc7, 0x1a, 0x55, 0x7e, 0x2d, 0xb9, 0x66, 0xc3, 0xe9, 0xfa, 0x91, 0x74, 0x60, 0x39] := by decide +kernel

/-- V1 and V2, the source's own digests of the empty message. -/
theorem test_digests_empty : hashOf .sha256 [] =
    [0xe3, 0xb0, 0xc4, 0x42, 0x98, 0xfc, 0x1c, 0x14, 0x9a, 0xfb, 0xf4, 0xc8, 0x99, 0x6f, 0xb9, 0x24,
     0x27, 0xae, 0x41, 0xe4, 0x64, 0x9b, 0x93, 0x4c, 0xa4, 0x95, 0x99, 0x1b, 0x78, 0x52, 0xb8, 0x55]
    ∧ hashOf .sha1 [] =
    [0xda, 0x39, 0xa3, 0xee, 0x5e, 0x6b, 0x4b, 0x0d, 0x32, 0x55, 0xbf, 0xef, 0x95, 0x60, 0x18, 0x90,
     0xaf, 0xd8, 0x07, 0x09] := by decide +kernel

/-- The zero counts of section 7. -/
theorem test_pad_zeros : [0, 3, 55, 56, 63, 64, 119, 120].map (padZeros .sha1) = [55, 52, 0, 63, 56, 55, 0, 63]
    ∧ [0, 3, 111, 112, 127, 128].map (padZeros .sha384) = [111, 108, 0, 127, 112, 111] := by decide

/-- The padded "abc" block of section 7. -/
theorem test_pad_abc : pad .sha256 [0x61, 0x62, 0x63]
    = [0x61, 0x62, 0x63, 0x80] ++ List.replicate 52 0 ++ [0, 0, 0, 0, 0, 0, 0, 0x18] := by decide

/-! ## COMPRESS (sections 8 and 9) -/

/-- The start of P2's last step: SHA-1 bound, the state region holding its initial vector and the padded "abc"
block stored. -/
def abcState : State :=
  { boundAt 0x80000000 0x1000 0x1040 with
      mem := writeBytes (writeBytes [] 0x1000
        [0x01, 0x23, 0x45, 0x67, 0x89, 0xab, 0xcd, 0xef, 0xfe, 0xdc, 0xba, 0x98, 0x76, 0x54, 0x32, 0x10,
     0xf0, 0xe1, 0xd2, 0xc3]) 0x1040
        ([0x61, 0x62, 0x63, 0x80] ++ List.replicate 59 0 ++ [0x18]) }

/-- The end of P2: the memory image, and no register changed. -/
theorem test_compress_p2 : memOf (exec .compress abcState) 0x1000 20 = some
    [0x36, 0x3e, 0x99, 0xa9, 0x6a, 0x81, 0x06, 0x47, 0x71, 0x25, 0x3e, 0xba, 0x6c, 0xc2, 0x50, 0x78,
     0x9d, 0xd8, 0xd0, 0x9c]
    ∧ blkOf (exec .compress abcState) = some abcState.blk := by decide +kernel

/-- X23: an F1 binding on a region that holds a SHA-1 vector reads and writes 32 bytes. -/
theorem test_compress_x23 : memOf (exec .compress
    { boundAt 0x80000001 0x1000 0x1100 with
        mem := writeBytes (writeBytes [] 0x1000
          [0x01, 0x23, 0x45, 0x67, 0x89, 0xab, 0xcd, 0xef, 0xfe, 0xdc, 0xba, 0x98, 0x76, 0x54, 0x32, 0x10,
     0xf0, 0xe1, 0xd2, 0xc3]) 0x1100 [0x80] }) 0x1000 32 = some
    [0xfd, 0xd2, 0x24, 0xa6, 0xde, 0xd1, 0x31, 0xe6, 0x60, 0x99, 0x7e, 0xc5, 0xf9, 0x4f, 0xce, 0x24,
     0x68, 0x58, 0xdf, 0x98, 0xda, 0x45, 0x8b, 0xcc, 0x96, 0xb9, 0xa1, 0x6d, 0x10, 0x90, 0x05, 0x7f] := by decide +kernel

/-- X12 to X17, X19 and X20: STATUS, FCMD and FADDR, the registers otherwise as before. -/
theorem test_compress_faults :
    ([(at2 0 0, 0x401, 0), (boundAt 0x80000000 0x0FFF 0, 0x601, 0xFFF), (boundAt 0x80000000 0x1FED 0, 0x601, 0x1FED),
      (boundAt 0x80000000 0x1FEC 0x0800, 0x601, 0x800), (boundAt 0x80000000 0x0F00 0x2000, 0x601, 0xF00),
      (boundAt 0x80000000 0x1000 0x1010, 0x701, 0), (boundAt 0x80000002 0x1000 0x1F81, 0x601, 0x1F81),
      (boundAt 0x80000002 0x1000 0x1020, 0x701, 0)] : List (State × Word × Addr)).all (fun e =>
      decide (blkOf (exec .compress e.1) = some { e.1.blk with status := e.2.1, fcmd := 0x0000000B, faddr := e.2.2 })) = true := by
  decide +kernel

/-- X18 and X21: adjacent regions are legal. -/
theorem test_compress_adjacent :
    compressCheck (boundAt 0x80000000 0x1040 0x1000) = .run .F0
    ∧ compressCheck (boundAt 0x80000001 0x1000 0x1020) = .run .F1 := by decide +kernel

/-- The top-of-memory rule of section 8, all memory admitted but the window, which stands elsewhere. -/
theorem test_admit_top :
    State.admits { State.reset with admitted := [⟨0, 0xFFFFFFFFFFFFFFFF⟩] } 0xFFFFFFFFFFFFFFEC 20 = true
    ∧ State.admits { State.reset with admitted := [⟨0, 0xFFFFFFFFFFFFFFFF⟩] } 0xFFFFFFFFFFFFFFED 20 = false := by
  decide +kernel

/-- R51: a region that touches the window is not admitted, whatever the platform admits. -/
theorem test_admit_window :
    State.admits { State.reset with admitted := [⟨0, 0xFFFFFFFFFFFFFFFF⟩] } 0x3F 20 = false
    ∧ State.admits { State.reset with admitted := [⟨0, 0xFFFFFFFFFFFFFFFF⟩] } 0x40 20 = true := by decide +kernel

/-! ## The window, reset and the draws -/

/-- P5: STATUS reads as the fault, CMD reads as 0 (R25). -/
theorem test_read_registers :
    lastSeen (step { faultedState with host := [.read .w32 0x04] }) = some (.register .STATUS 0x00000401)
    ∧ lastSeen (step { faultedState with host := [.read .w32 0x20] }) = some (.register .FCMD 0x0000000B)
    ∧ lastSeen (step { faultedState with host := [.read .w32 0x00] }) = some (.register .CMD 0) := by decide +kernel

/-- P5: a command word to a faulted instance is discarded (R266). -/
theorem test_faulted_discards :
    blkOf (step { faultedState with host := [.write .w32 0x00 0x0000020A] }) = some faultedState.blk := by decide +kernel

/-- X6: a word of no row raises ILLEGAL_CMD and FCMD takes the whole word. -/
theorem test_illegal_word :
    blkOf (step { State.reset with host := [.write .w32 0x00 0x80000002] })
      = some { Block.atReset 0 with status := 0x00000101, fcmd := 0x80000002 } := by decide +kernel

/-- R88, R295: each half replaces its own 32 bits. -/
theorem test_address_halves :
    blkOf (step { at2 0x1111111122222222 0 with host := [.write .w32 0x14 0xAAAABBBB] })
      = some (at2 0xAAAABBBB22222222 0).blk
    ∧ blkOf (step { at2 0 0x1111111122222222 with host := [.write .w32 0x18 0xAAAABBBB] })
      = some (at2 0 0x11111111AAAABBBB).blk := by decide +kernel

/-- R290: reset clears a faulted instance. -/
theorem test_reset_event : blkOf (step { faultedState with host := [.reset 0x00] }) = some (Block.atReset 0) := by
  decide +kernel

/-- R38: a command reaches the instance whose window holds the address, and the other keeps its registers. -/
theorem test_second_instance :
    blkOf (step { State.reset with others := [Block.atReset 0x40], host := [.write .w32 0x40 0x0000020A] })
      = some { Block.atReset 0x40 with eng := 0x80000001, result := 1 } := by decide +kernel

/-- R298: a fault of any instance makes the run unsuccessful (log entry 22). -/
theorem test_successful : State.reset.successful = true
    ∧ State.successful { State.reset with others := [{ faultedState.blk with base := 0x40 }] } = false := by decide


/-! ## Witnesses: a case that meets the hypotheses of each statement -/

/-- A state whose next input is the given one, with two instances. -/
def asked (e : HostEvent) : State := { abcState with host := [e], others := [Block.atReset 0x40] }

/-- The same after the input is taken. -/
def taken : State := { abcState with host := [], others := [Block.atReset 0x40] }

/-- The same with the addressed instance faulted. -/
def faultedTaken : State := { taken with blk := faultedState.blk }

theorem reaches_of (s : State) (a : Addr) (off : Nat) (h1 : s.select a = some s) (h2 : s.blk.base.toNat % 64 = 0)
    (h3 : a.toNat = s.blk.base.toNat + off) : reaches s s a off := ⟨h1, h2, h3⟩

theorem test_witness_CommandAndWordAgree : decode 0x0000170A = .ok (.engref 7 1) ∧ encode (.engref 7 1) = 0x0000170A := by
  decide

theorem test_witness_RowsOfTheOpcodeTable : (.ENGREF, 0x0000000A, 0xFFFF08FF) ∈ opcodeRows ∧ decode 0x0000F70A = .ok (.engref 7 15) ∧ opOf (.engref 7 15) = .ENGREF
    ∧ (0x0000F70A : Word) &&& 0xFFFF08FF = 0x0000000A := by decide

/-- Each clause: OP below and above the rows, each reserved field, VAR and IMPL where they are unused, the reserved
codes, and a word that passes. -/
theorem test_witness_CommandWordChecksInOrder : State.reset.blk.faulted = false ∧ faultedState.blk.faulted = true
    ∧ (0x00000000 : Word).extractLsb' 0 8 < 0x01 ∧ 0x0B < (0x0000000C : Word).extractLsb' 0 8
    ∧ ((0x00010001 : Word).extractLsb' 0 8 = opCode .QBLK ∧ (0x00010001 : Word).extractLsb' 16 16 ≠ 0)
    ∧ ((0x00000801 : Word).extractLsb' 0 8 = opCode .QBLK ∧ (0x00000801 : Word).extractLsb' 11 1 ≠ 0)
    ∧ ((0x00000106 : Word).extractLsb' 0 8 = opCode .FAST ∧ usesVar .FAST = false ∧ (0x00000106 : Word).extractLsb' 8 3 ≠ 0)
    ∧ ((0x0000100B : Word).extractLsb' 0 8 = opCode .COMPRESS ∧ usesImpl .COMPRESS = false
        ∧ (0x0000100B : Word).extractLsb' 12 4 ≠ 0) := by decide

/-- The last clauses: the two reserved codes, and a word that passes; and a command that passes and faults later. -/
theorem test_witness_CommandWordChecksInOrder_fields :
    ((0x00000709 : Word).extractLsb' 16 16 = 0 ∧ (0x00000709 : Word).extractLsb' 11 1 = 0 ∧ usesVar .ENGNEW = true
      ∧ (0x00000709 : Word).extractLsb' 8 3 = 7)
    ∧ ((0x0000F60A : Word).extractLsb' 16 16 = 0 ∧ (0x0000F60A : Word).extractLsb' 11 1 = 0 ∧ usesImpl .ENGREF = true
      ∧ (0x0000F60A : Word).extractLsb' 8 3 ≠ 7 ∧ (0x0000F60A : Word).extractLsb' 12 4 ≠ 0)
    ∧ ((0x00000609 : Word).extractLsb' 0 8 = opCode .ENGNEW ∧ (0x00000609 : Word).extractLsb' 8 3 ≠ 7
      ∧ (0x00000609 : Word).extractLsb' 12 4 = 0)
    ∧ ∃ t, exec (.ldiv 2) State.reset = .next t ∧ t.blk.faulted = true := by
  refine ⟨by decide, by decide, by decide, _, rfl, by decide +kernel⟩

theorem test_witness_StepRunsTheDecodedCommand :
    (asked (.write .w32 0x00 0x0000000B)).host = .write .w32 0x00 0x0000000B :: [] ∧ reaches taken taken 0x00 0x00
    ∧ taken.blk.faulted = false ∧ decode 0x0000000B = .ok .compress :=
  ⟨rfl, reaches_of _ _ _ (select_self (by decide)) (by decide) (by decide), by decide, by decide⟩

/-- One case for each defined offset; the clauses of the address halves are those at 0x10 to 0x1C. -/
theorem test_witness_FaultedInstanceDiscardsCommands : faultedTaken.blk.faulted = true
    ∧ ∀ off ∈ (readTable faultedTaken.blk).map (·.1), reaches faultedTaken faultedTaken (BitVec.ofNat 64 off) off := by
  refine ⟨by decide, fun off h => ?_⟩
  simp only [readTable, List.map_cons, List.map_nil, List.mem_cons, List.not_mem_nil, or_false] at h
  rcases h with rfl | rfl | rfl | rfl | rfl | rfl | rfl | rfl | rfl | rfl | rfl <;>
    exact reaches_of _ _ _ (select_self (by decide)) (by decide) (by decide)

/-- A faulted instance beside the one that a command runs on. -/
theorem test_witness_FaultIsStickyUntilReset :
    ∃ t, step { asked (.write .w32 0x00 0x00000006) with others := [{ faultedState.blk with base := 0x40 }] } = .next t
      ∧ ∃ b ∈ [{ faultedState.blk with base := 0x40 }], b.faulted = true :=
  ⟨_, rfl, { faultedState.blk with base := 0x40 }, by simp, by decide⟩

theorem test_witness_OtherInstancesKeepTheirRegisters :
    (∃ t, step (asked (.write .w32 0x40 0x0000020A)) = .next t
      ∧ (asked (.write .w32 0x40 0x0000020A)).host.head?.bind addressed = some 0x40 ∧ t.others = [abcState.blk])
    ∧ ∃ t, step (asked (.load 0x1000 20)) = .next t
      ∧ (asked (.load 0x1000 20)).host.head?.bind addressed = none := ⟨⟨_, rfl, rfl, rfl⟩, _, rfl, rfl⟩

/-- The last address of the second instance's window, the one after it, and the first of the addressed one's. -/
theorem test_witness_AddressSelectsTheInstanceOfItsWindow :
    (∃ b ∈ taken.blk :: taken.others, b.base.toNat ≤ (0x7F : Addr).toNat ∧ (0x7F : Addr).toNat < b.base.toNat + 64)
    ∧ (∀ b ∈ taken.blk :: taken.others, ¬ (b.base.toNat ≤ (0x80 : Addr).toNat ∧ (0x80 : Addr).toNat < b.base.toNat + 64))
    ∧ taken.blk.base.toNat ≤ (0x00 : Addr).toNat ∧ (0x00 : Addr).toNat < taken.blk.base.toNat + 64 := by decide

theorem test_witness_IdleBlockKeepsItsState : taken.host = [] := rfl

theorem test_witness_InvariantKeptByEveryStep : (asked (.write .w32 0x00 0x0000020A)).Inv
    ∧ ∃ t, step (asked (.write .w32 0x00 0x0000020A)) = .next t := ⟨by decide +kernel, _, rfl⟩

theorem test_witness_FaultingCommandLeavesNoPartialEffect : (at2 0 0).blk.faulted = false
    ∧ ∃ t, exec (.ldiv 2) (at2 0 0) = .next t ∧ t.blk.faulted = true := ⟨by decide, _, rfl, by decide +kernel⟩

/-- X12, an implementation that is not available, X13, X15 and X17; the last regions meet in one byte only. -/
theorem test_witness_CompressChecksInOrder : (at2 0 0).blk.bound = false
    ∧ ((boundAt 0x80000010 0 0).blk.bound = true ∧ avail (boundAt 0x80000010 0 0).blk.engImpl = false)
    ∧ ((boundAt 0x80000000 0x0FFF 0).blk.bound = true ∧ avail (boundAt 0x80000000 0x0FFF 0).blk.engImpl = true
        ∧ (boundAt 0x80000000 0x0FFF 0).blk.engFamily = familyCode .F0
        ∧ (boundAt 0x80000000 0x0FFF 0).admits 0x0FFF (familyStateLen .F0) = false)
    ∧ ((boundAt 0x80000000 0x1FEC 0x1FC1).admits 0x1FEC (familyStateLen .F0) = true
        ∧ (boundAt 0x80000000 0x1FEC 0x1FC1).admits 0x1FC1 (familyBlockLen .F0) = false)
    ∧ ((boundAt 0x80000000 0x1000 0x1013).admits 0x1000 (familyStateLen .F0) = true
        ∧ (boundAt 0x80000000 0x1000 0x1013).admits 0x1013 (familyBlockLen .F0) = true
        ∧ 0x1000 < 0x1013 + familyBlockLen .F0 ∧ 0x1013 < 0x1000 + familyStateLen .F0) := by decide +kernel

theorem test_witness_CompressStopsOnReservedFamily : (boundAt 0x80000003 0 0).blk.bound = true
    ∧ avail (boundAt 0x80000003 0 0).blk.engImpl = true ∧ (boundAt 0x80000003 0 0).blk.engFamily = 3
    ∧ (boundAt 0x80000002 0 0).blk.Legal := by decide

/-- The rows that `rowOf` speaks of: an unfaulted block, a word of the row and one outside it. -/
theorem test_witness_QueriesWriteTheTableLengths : State.reset.blk.faulted = false
    ∧ ∀ e ∈ ([(0x01, 0x00000001, 0x00000701, 0x00001001), (0x02, 0x00000002, 0x00000702, 0x00000802),
        (0x03, 0x00000003, 0x00000703, 0x80000003), (0x04, 0x00000004, 0x00000704, 0x00010004)] :
        List (BitVec 8 × Word × Word × Word)),
      e.2.2.1.extractLsb' 0 8 = e.1 ∧ e.2.2.1 &&& 0xFFFFF8FF = e.2.1
        ∧ e.2.2.2.extractLsb' 0 8 = e.1 ∧ e.2.2.2 &&& 0xFFFFF8FF ≠ e.2.1 := by
  refine ⟨by decide, fun e he => ?_⟩
  simp only [List.mem_cons, List.not_mem_nil, or_false] at he
  rcases he with rfl | rfl | rfl | rfl <;> decide

theorem test_witness_VariantTableLaws : 3 ≤ (variantCode .sha384).toNat ∧ (variantCode .sha256).toNat ≤ 2
    ∧ digestLen .sha1 = stateLen .sha1 ∧ digestLen .sha224 < stateLen .sha224 := by decide

/-- The last admitted state region, and the one a byte further. -/
theorem test_witness_LdivWritesTheInitialState : (at2 0x1FEC 0).mem.wf = true
    ∧ (at2 0x1FEC 0).admits (at2 0x1FEC 0).blk.stateAddr (stateLen .sha1) = true
    ∧ (at2 0x1FED 0).admits (at2 0x1FED 0).blk.stateAddr (stateLen .sha1) = false
    ∧ (at2 0x1FC0 0).admits (at2 0x1FC0 0).blk.stateAddr (stateLen .sha512) = true
    ∧ (0x00000705 : Word) &&& 0xFFFFF8FF = 0x00000005 ∧ (0x00001005 : Word) &&& 0xFFFFF8FF ≠ 0x00000005 := by
  decide +kernel

theorem test_witness_SevenDistinctInitialVectors : ivWords .sha224 = ivWords .sha224
    ∧ 0xF70E5939 ∈ ivWords .sha224 := by decide

theorem test_witness_SelectorQueriesAnswerGeneric : (1 : BitVec 4) ≠ 0 ∧ (15 : BitVec 4) ≠ 0
    ∧ (0x00000006 : Word) &&& 0xFFFFFFFF = 0x00000006 ∧ (0x00000106 : Word) &&& 0xFFFFFFFF ≠ 0x00000006
    ∧ (0x0000F008 : Word) &&& 0xFFFF0FFF = 0x00000008 ∧ (0x00000108 : Word) &&& 0xFFFF0FFF ≠ 0x00000008
    ∧ (0x00001007 : Word) &&& 0xFFFFFFFF ≠ 0x00000007 := by decide

theorem test_witness_EngnewBindsTheFamily : (6 : BitVec 3) ≠ 7 ∧ (15 : BitVec 4) ≠ 0
    ∧ (0x0000F709 : Word) &&& 0xFFFF08FF = 0x00000009 ∧ (0x00000809 : Word) &&& 0xFFFF08FF ≠ 0x00000009 := by decide

theorem test_witness_EngrefBindsAndNamesTheSingleton : (0 : BitVec 3) ≠ 7 ∧ (1 : BitVec 4) ≠ 0
    ∧ (0x0000F70A : Word) &&& 0xFFFF08FF = 0x0000000A ∧ (0x0001000A : Word) &&& 0xFFFF08FF ≠ 0x0000000A := by decide

/-- One case for each family, the regions adjacent on either side. -/
theorem test_witness_CompressRunsTheBoundRoutine :
    ∀ e ∈ ([(boundAt 0x80000000 0x1040 0x1000, .F0), (boundAt 0x80000001 0x1000 0x1020, .F1),
        (boundAt 0x80000002 0x1FC0 0x1F40, .F2)] : List (State × Family)),
      e.1.mem.wf = true ∧ e.1.blk.bound = true ∧ avail e.1.blk.engImpl = true ∧ e.1.blk.engFamily = familyCode e.2
        ∧ e.1.admits e.1.blk.stateAddr (familyStateLen e.2) = true
        ∧ e.1.admits e.1.blk.blockAddr (familyBlockLen e.2) = true
        ∧ (e.1.blk.blockAddr.toNat + familyBlockLen e.2 ≤ e.1.blk.stateAddr.toNat
          ∨ e.1.blk.stateAddr.toNat + familyStateLen e.2 ≤ e.1.blk.blockAddr.toNat) := by decide +kernel

/-- Each kind of command answers a next state. -/
theorem test_witness_RegistersEachCommandLeaves :
    (∃ t, exec (.engref 2 0) (at2 0x1000 0) = .next t) ∧ (∃ t, exec (.ldiv 2) (at2 0x1000 0) = .next t)
    ∧ (∃ t, exec .fast (at2 0x1000 0) = .next t) ∧ ∃ t, exec .compress (at2 0x1000 0) = .next t :=
  ⟨⟨_, rfl⟩, ⟨_, rfl⟩, ⟨_, rfl⟩, _, rfl⟩

/-- The bytes on either side of the region that LDIV SHA1 writes. -/
theorem test_witness_CommandStoresOnlyToItsRegion : (∃ t, exec (.ldiv 0) (at2 0x1000 0) = .next t)
    ∧ spansHave (memWrites (.ldiv 0) (at2 0x1000 0)) 0x0FFF = false
    ∧ spansHave (memWrites (.ldiv 0) (at2 0x1000 0)) 0x1013 = true
    ∧ spansHave (memWrites (.ldiv 0) (at2 0x1000 0)) 0x1014 = false := ⟨⟨_, rfl⟩, by decide +kernel⟩

theorem test_witness_CompressRegionsShareNoByte : compressCheck abcState = .run .F0 := by decide +kernel

/-- The same bytes at the same places under another RESULT, and a command that completes on both. -/
theorem test_witness_CompressIsPure :
    abcState.mem.wf = true ∧ abcState.blk.engFamily = familyCode .F0 ∧ abcState.blk.faulted = false
    ∧ ∃ t t', exec .compress abcState = .next t ∧ exec .compress (abcState.setResult 1) = .next t'
        ∧ t.blk.faulted = false ∧ t'.blk.faulted = false :=
  ⟨by decide +kernel, by decide, by decide, abcState.memWrite 0x1000 (compressBytes abcState .F0),
    (abcState.setResult 1).memWrite 0x1000 (compressBytes (abcState.setResult 1) .F0),
    by simp only [exec, execCompress, show compressCheck abcState = .run .F0 by decide +kernel]; rfl,
    by simp only [exec, execCompress, show compressCheck (abcState.setResult 1) = .run .F0 by decide +kernel]; rfl,
    by decide, by decide⟩

/-- The lengths that the schedules and the routines are stated for. -/
theorem test_witness_SchedulesAndRounds : (List.replicate 16 (0 : BitVec 32)).length = 16
    ∧ (List.replicate 16 (0 : BitVec 64)).length = 16 ∧ (List.replicate 5 (0 : BitVec 32)).length = 5
    ∧ (List.replicate 8 (0 : BitVec 32)).length = 8 ∧ (List.replicate 8 (0 : BitVec 64)).length = 8 := by decide

theorem test_witness_WordsAndBytesAreInverse : ([0, 0, 0, 0, 0, 0, 0, 0] : List Byte).length = 2 * (32 / 8)
    ∧ 1 < ([0, 0] : List (BitVec 32)).length ∧ 3 < 32 / 8 := by decide

/-- A region whose last byte is the first of the window, which stands at 0. -/
theorem test_witness_AdmissionOfARegion : 0 < 20 ∧ State.reset.blk.base.toNat ≤ (0x3F : Addr).toNat + 0
    ∧ (0x3F : Addr).toNat + 0 < State.reset.blk.base.toNat + 64 := by decide

/-- A store that ends at the last byte of the address space. -/
theorem test_witness_HostStoreThenLoad :
    { taken with host := [.store 0xFFFFFFFFFFFFFFFE [1, 2], .load 0xFFFFFFFFFFFFFFFE 2] }.mem.wf = true
    ∧ (0xFFFFFFFFFFFFFFFE : Addr).toNat + ([1, 2] : List Byte).length ≤ 2 ^ 64
    ∧ (∀ k < 2, { taken with host := [.store 0xFFFFFFFFFFFFFFFE [1, 2], .load 0xFFFFFFFFFFFFFFFE 2] }.inWindow
        ((0xFFFFFFFFFFFFFFFE : Addr).toNat + k) = false) := by decide +kernel

/-- One offset for each clause: 0 and 63 for the width, 1 and 63 for the alignment, the first and the last reserved
offset, and the last read-only register. -/
theorem test_witness_HostAccessRules :
    ∀ off ∈ [0x00, 0x01, 0x24, 0x2C, 0x3C, 0x3F], off < 64 ∧ reaches taken taken (BitVec.ofNat 64 off) off := by
  intro off h
  simp only [List.mem_cons, List.not_mem_nil, or_false] at h
  rcases h with rfl | rfl | rfl | rfl | rfl | rfl <;>
    exact ⟨by decide, reaches_of _ _ _ (select_self (by decide)) (by decide) (by decide)⟩

theorem test_witness_HostReadReturnsTheRegister :
    (asked (.read .w32 0x2C)).host = .read .w32 0x2C :: [] ∧ reaches taken taken 0x00 0x00 ∧ reaches taken taken 0x2C 0x2C :=
  ⟨rfl, reaches_of _ _ _ (select_self (by decide)) (by decide) (by decide),
    reaches_of _ _ _ (select_self (by decide)) (by decide) (by decide)⟩

theorem test_witness_AddressHalvesInEitherOrder : taken.blk.base.toNat % 64 = 0
    ∧ { taken with host := [.write .w32 0x14 1, .write .w32 0x10 2] }.host
      = ([(0x14, 1), (0x10, 2)] : List (Nat × Word)).map
          (fun p => HostEvent.write .w32 (taken.blk.base + BitVec.ofNat 64 p.1) p.2) ++ [] := by decide

theorem test_witness_ResetClearsEveryRegister :
    { faultedTaken with host := [.reset 0x3F] }.host = .reset 0x3F :: []
    ∧ { faultedTaken with host := [] }.select 0x3F = some { faultedTaken with host := [] } :=
  ⟨rfl, select_self (by decide)⟩

/-- COMPRESS abandoned on a good state, and a word that never runs. -/
theorem test_witness_ResetDuringCommandKeepsOtherMemory :
    (asked (.resetDuring 0x00 0x0000000B)).host = .resetDuring 0x00 0x0000000B :: [] ∧ taken.select 0x00 = some taken
    ∧ decode 0x0000000B = .ok .compress ∧ taken.blk.faulted = false
    ∧ spansHave (memWrites .compress taken) 0x0FFF = false ∧ spansHave (memWrites .compress taken) 0x1013 = true
    ∧ spansHave (memWrites .compress taken) 0x1014 = false
    ∧ faultedTaken.blk.faulted = true ∧ decode 0x0000000C = .error .reservedOp :=
  ⟨rfl, select_self (by decide), by decide, by decide, by decide +kernel, by decide +kernel, by decide +kernel,
    by decide, by decide⟩

/-- COMPRESS while another agent stores to the first byte of its block and reads a byte of its state region. -/
theorem test_witness_RaceAffectsOnlyMemory :
    (asked (.racing 0x00 0x0000000B [.write 0x1040 1, .read 0x1000])).host
      = .racing 0x00 0x0000000B [.write 0x1040 1, .read 0x1000] :: [] ∧ taken.select 0x00 = some taken
    ∧ (∀ o ∈ ([.write 0x1040 1, .read 0x1000] : List OtherAccess),
        (asked (.racing 0x00 0x0000000B [.write 0x1040 1, .read 0x1000])).inWindow (otherAddr o).toNat = false)
    ∧ (∃ u, runCommand 0x0000000B taken = .next u) ∧ spansHave (wordWrites 0x0000000B taken) 0x1014 = false :=
  ⟨rfl, select_self (by decide), by decide +kernel,
    ⟨taken.memWrite 0x1000 (compressBytes taken .F0), by
      simp only [runCommand, show taken.blk.faulted = false by decide, show decode 0x0000000B = .ok .compress by decide,
        exec, execCompress, show compressCheck taken = .run .F0 by decide +kernel]; rfl⟩, by decide +kernel⟩

/-- COMPRESS while another agent stores to the byte after its state region. -/
theorem test_witness_NoRaceWithoutSharedBytes :
    (∀ o ∈ ([.write 0x1014 1] : List OtherAccess),
        (asked (.racing 0x00 0x0000000B [.write 0x1014 1])).inWindow (otherAddr o).toNat = false)
    ∧ (∀ o ∈ ([.write 0x1014 1] : List OtherAccess),
        spansHave (wordReads 0x0000000B taken ++ wordWrites 0x0000000B taken) (otherAddr o).toNat = false)
    ∧ spansHave (wordReads 0x0000000B taken ++ wordWrites 0x0000000B taken) 0x1013 = true := by decide +kernel

theorem test_witness_PaddedMessage : 62 < padZeros .sha256 56 ∧ ¬ 63 < padZeros .sha256 56
    ∧ (0x80 :: List.replicate 63 0) ∈ blocksOf .sha256 (pad .sha256 []) := by decide

theorem test_witness_DigestIsOrderIndependent :
    (List.replicate 8 (0 : BitVec 64)).length * (familyWordBits (familyOf .sha512t224) / 8) = stateLen .sha512t224 := by decide

/-- P1: the session of the empty message, from the start state of section 9. -/
theorem test_witness_SessionLeavesTheHashInTheStateRegion :
    let s : State := { State.reset with host := session State.reset.blk.base .sha256 [] 0x1000 (fun _ => 0x1100) }
    s.mem.wf = true ∧ s.blk.faulted = false ∧ s.blk.base.toNat % 64 = 0 ∧ s.admits 0x1000 (stateLen .sha256) = true
    ∧ (∀ j < (blocksOf .sha256 (pad .sha256 [])).length, s.admits 0x1100 (blockLen .sha256) = true
      ∧ ((0x1100 : Addr).toNat + blockLen .sha256 ≤ (0x1000 : Addr).toNat
        ∨ (0x1000 : Addr).toNat + stateLen .sha256 ≤ (0x1100 : Addr).toNat)) := by decide +kernel

end Sys2Proof.Tests
end

section
/-! PROOFS. Words and the bytes of a region (R12): the value of a word bit by bit, the two inverses for one word, the
recursion of `wordsOf` along a region, and the obligation. -/

namespace Sys2Proof.Machine

/-! ## One word -/

theorem wordLE_cons (w : Nat) (b : Byte) (bs : List Byte) :
    wordLE w (b :: bs) = (wordLE w bs <<< 8) ||| b.setWidth w := by
  simp [wordLE, wordBE, List.foldl_append]

theorem wordBE_eq_wordLE_reverse (w : Nat) (bs : List Byte) : wordBE w bs = wordLE w bs.reverse := by
  simp [wordLE]

theorem bytesBE_eq_bytesLE_reverse {w : Nat} (x : BitVec w) : bytesBE x = (bytesLE x).reverse := by
  simp [bytesLE]

/-- Bit `k` of a word is bit `k % 8` of byte `k / 8`, least significant byte first; no length is asked, as absent
bytes read 0 and bytes past the width are cut off. -/
theorem wordLE_getLsbD (w : Nat) (bs : List Byte) (k : Nat) :
    (wordLE w bs).getLsbD k = (decide (k < w) && (bs.getD (k / 8) 0).getLsbD (k % 8)) := by
  induction bs generalizing k with
  | nil => simp [wordLE, wordBE]
  | cons b bs ih =>
    rw [wordLE_cons, BitVec.getLsbD_or, BitVec.getLsbD_shiftLeft, BitVec.getLsbD_setWidth]
    rcases Nat.lt_or_ge k 8 with hk | hk
    · simp [hk, Nat.div_eq_of_lt hk, Nat.mod_eq_of_lt hk]
    · have hdiv : k / 8 = (k - 8) / 8 + 1 := by omega
      have hmod : k % 8 = (k - 8) % 8 := by omega
      have hout : b.getLsbD k = false := BitVec.getLsbD_of_ge b k hk
      have hsub : k < w → k - 8 < w := by omega
      rw [ih, hout, hdiv, hmod, List.getD_cons_succ]
      by_cases hkw : k < w
      · simp [hkw, hsub hkw, Nat.not_lt.2 hk]
      · simp [hkw]

theorem wordLE_bytesLE {w : Nat} (hw : 8 ∣ w) (x : BitVec w) : wordLE w (bytesLE x) = x := by
  refine BitVec.eq_of_getLsbD_eq fun k hk => ?_
  have hbyte : (bytesLE x)[k / 8]? = some (x.extractLsb' (8 * (k / 8)) 8) := bytesLE_getElem? x (by omega)
  have hpos : 8 * (k / 8) + k % 8 = k := Nat.div_add_mod k 8
  have hbit : k % 8 < 8 := Nat.mod_lt k (by decide)
  rw [wordLE_getLsbD, List.getD_eq_getElem?_getD, hbyte, Option.getD_some, BitVec.getLsbD_extractLsb', hpos]
  simp [hk, hbit]

theorem bytesLE_wordLE {w : Nat} {bs : List Byte} (hlen : bs.length = w / 8) : bytesLE (wordLE w bs) = bs := by
  refine List.ext_getElem? fun j => ?_
  rcases Nat.lt_or_ge j (w / 8) with hj | hj
  · rw [bytesLE_getElem? _ hj, List.getElem?_eq_getElem (hlen ▸ hj), Option.some.injEq]
    refine BitVec.eq_of_getLsbD_eq fun k hk => ?_
    have hdiv : (8 * j + k) / 8 = j := by omega
    have hmod : (8 * j + k) % 8 = k := by omega
    have hin : 8 * j + k < w := by omega
    rw [BitVec.getLsbD_extractLsb', wordLE_getLsbD, hdiv, hmod, List.getD_eq_getElem bs 0 (hlen ▸ hj)]
    simp [hin, hk]
  · rw [List.getElem?_eq_none (by simpa using hj), List.getElem?_eq_none (by omega)]

theorem wordOf_bytesOf (o : ByteOrder) {w : Nat} (hw : 8 ∣ w) (x : BitVec w) : wordOf o w (bytesOf o x) = x := by
  cases o with
  | LE => exact wordLE_bytesLE hw x
  | BE =>
    rw [wordOf, bytesOf, wordBE_eq_wordLE_reverse]
    exact wordLE_bytesLE hw x

theorem bytesOf_wordOf (o : ByteOrder) {w : Nat} {bs : List Byte} (hlen : bs.length = w / 8) :
    bytesOf o (wordOf o w bs) = bs := by
  cases o with
  | LE => exact bytesLE_wordLE hlen
  | BE =>
    rw [wordOf, bytesOf, wordBE_eq_wordLE_reverse, bytesBE_eq_bytesLE_reverse,
      bytesLE_wordLE (by simpa using hlen), List.reverse_reverse]

/-! ## The words of a region -/

/-- The first word of a region stands at its first `w / 8` bytes, the others in the rest. -/
theorem wordsOf_succ (o : ByteOrder) (w n : Nat) (bs : List Byte) :
    wordsOf o w (n + 1) bs = wordOf o w (bs.take (w / 8)) :: wordsOf o w n (bs.drop (w / 8)) := by
  simp [wordsOf, List.range_succ_eq_map, Function.comp_def, Nat.succ_mul, Nat.add_comm]

theorem regionBytes_cons (o : ByteOrder) {w : Nat} (x : BitVec w) (hs : List (BitVec w)) :
    regionBytes o (x :: hs) = bytesOf o x ++ regionBytes o hs := List.flatMap_cons

theorem wordsOf_regionBytes (o : ByteOrder) {w : Nat} (hw : 8 ∣ w) (hs : List (BitVec w)) :
    wordsOf o w hs.length (regionBytes o hs) = hs := by
  induction hs with
  | nil => rfl
  | cons x hs ih =>
    have hlen : (bytesOf o x).length = w / 8 := bytesOf_length o x
    rw [List.length_cons, wordsOf_succ, regionBytes_cons, List.take_left' hlen, List.drop_left' hlen,
      wordOf_bytesOf o hw, ih]

theorem regionBytes_wordsOf (o : ByteOrder) {w : Nat} (n : Nat) {bs : List Byte} (hlen : bs.length = n * (w / 8)) :
    regionBytes o (wordsOf o w n bs) = bs := by
  induction n generalizing bs with
  | zero =>
    rw [Nat.zero_mul] at hlen
    rw [List.eq_nil_of_length_eq_zero hlen]
    rfl
  | succ n ih =>
    rw [Nat.succ_mul] at hlen
    have hfirst : (bs.take (w / 8)).length = w / 8 := List.length_take_of_le (by omega)
    have hrest : (bs.drop (w / 8)).length = n * (w / 8) := by rw [List.length_drop]; omega
    rw [wordsOf_succ, regionBytes_cons, bytesOf_wordOf o hfirst, ih hrest, List.take_append_drop]

/-! ## Byte `j` of word `i` -/

/-- The place of byte `j` in a word of `n` bytes, counted from the least significant byte. -/
def byteLane (o : ByteOrder) (n j : Nat) : Nat :=
  match o with
  | .LE => j
  | .BE => n - 1 - j

theorem bytesOf_getElem? (o : ByteOrder) {w : Nat} (x : BitVec w) {j : Nat} (hj : j < w / 8) :
    (bytesOf o x)[j]? = some (x.extractLsb' (8 * byteLane o (w / 8) j) 8) := by
  cases o with
  | LE => exact bytesLE_getElem? x hj
  | BE => exact bytesBE_getElem? x hj

theorem regionBytes_getD (o : ByteOrder) {w : Nat} (hs : List (BitVec w)) {i j : Nat} (hi : i < hs.length)
    (hj : j < w / 8) :
    (regionBytes o hs).getD (i * (w / 8) + j) 0 = (hs.getD i 0).extractLsb' (8 * byteLane o (w / 8) j) 8 := by
  simp [List.getD_eq_getElem?_getD, regionBytes_getElem? o hs hj, List.getElem?_eq_getElem hi, bytesOf_getElem? o _ hj]

/-- Settles O37: the inverses hold for every width of whole bytes, by recursion along the words of the region from
the two inverses for one word, which are compared bit by bit. -/
theorem wordsAndBytesAreInverse : Obligations.WordsAndBytesAreInverse := by
  unfold Obligations.WordsAndBytesAreInverse
  intro w hmem o
  have hw : 8 ∣ w := by
    simp only [List.mem_cons, List.not_mem_nil, or_false] at hmem
    omega
  refine ⟨wordsOf_regionBytes o hw, fun n _ hlen => regionBytes_wordsOf o n hlen, fun hs i j hi hj => ?_⟩
  rw [regionBytes_getD o hs hi hj]
  cases o <;> rfl

end Sys2Proof.Machine
end

section
/-! PROOFS. What one input does to the instance it addresses, from `step_cases`: what every step keeps around it (R38,
R271), that a recorded fault stays (R36, R266, R267), and the legal registers (R26 to R32). -/

namespace Sys2Proof.Machine

open Sys2Proof.Claims

/-! ## Changes that no register sees -/

/-- `t` is `s` but for host memory, which stays canonical, what has been given back and the count of draws. -/
def ChangesOutside (s t : State) : Prop :=
  (s.mem.wf = true → t.mem.wf = true) ∧ t = { s with mem := t.mem, observed := t.observed, draws := t.draws }

theorem changesOutside_refl (s : State) : ChangesOutside s s := ⟨id, rfl⟩

theorem changesOutside_observe (s : State) (o : Observation) : ChangesOutside s (s.observe o) := ⟨id, rfl⟩

theorem changesOutside_memWrite (s : State) {a : Nat} {bs : List Byte} (hb : a + bs.length ≤ addrSpace) :
    ChangesOutside s (s.memWrite a bs) := ⟨wf_writeBytes bs hb, rfl⟩

theorem changesOutside_drawWrites (c : Word) (u s : State) :
    ChangesOutside s ((wordWrites c u).foldl State.drawSpan s) := by
  refine ⟨drawSpans_wf fun r hr => wordWrites_le hr, ?_⟩
  rw [drawSpans_frame]

theorem changesOutside_settleRace (c : Word) (os : List OtherAccess) (u s : State) :
    ChangesOutside s (settleRace (wordReads c u) (wordWrites c u) os s) := by
  refine ⟨fun hm => ?_, settleRace_frame _ _ _ _⟩
  have ht := otherEffects_wf (wordWrites c u) os hm
  unfold settleRace
  dsimp only
  split
  · exact drawSpans_wf (fun r hr => wordWrites_le hr) ht
  · exact ht

/-! ## What an input does to the addressed instance -/

/-- Everything an input but a reset can do to the machine whose addressed instance it names. -/
inductive ActsOnInstance (s t : State) : Prop where
  | command (c : Word) (u : State) (hrun : runCommand c s = .next u) (hafter : ChangesOutside u t)
  | stateAddr (x : Addr) (ht : t = s.setStateAddr x)
  | blockAddr (x : Addr) (ht : t = s.setBlockAddr x)
  | outside (h : ChangesOutside s t)

/-- The addressed instance is reset, after the draws of a command that is abandoned. -/
def ResetsInstance (s t : State) : Prop := ∃ u, ChangesOutside s u ∧ t = u.resetBlk

/-- A step either leaves every register alone or acts on the one instance that the address of its input selects. -/
theorem step_acts {s t : State} (h : step s = .next t) :
    (s.host.head?.bind addressed = none ∧ ChangesOutside { s with host := s.host.tail } t)
    ∨ ∃ a u, s.host.head?.bind addressed = some a ∧ { s with host := s.host.tail }.select a = some u
        ∧ (ActsOnInstance u t
          ∨ ((∃ rest, s.host = .reset a :: rest) ∨ ∃ c rest, s.host = .resetDuring a c :: rest)
            ∧ ResetsInstance u t) := by
  rcases step_cases h with ⟨hh, rfl⟩ | ⟨e, rest, hh, hcase⟩
  · refine .inl ⟨by rw [hh]; rfl, id, ?_⟩
    rw [hh, List.tail_nil, ← hh]
  rw [hh, List.tail_cons, List.head?_cons, Option.bind_some]
  rcases hcase with ⟨u, hu, hact⟩ | ⟨a, bs, rfl, hlen, rfl⟩ | ⟨a, n, o, rfl, rfl⟩
  · right
    rcases hact with ⟨w, a, v, rfl, hw⟩ | ⟨w, a, o, rfl, rfl⟩ | ⟨a, rfl, rfl⟩ | ⟨a, c, rfl, rfl⟩
      | ⟨a, c, os, x, rfl, hrun, rfl⟩
    · refine ⟨a, u, rfl, hu, .inl ?_⟩
      rcases hw with hrun | ⟨x, hx⟩ | ⟨x, hx⟩ | rfl
      · exact .command v t hrun (changesOutside_refl t)
      · exact .stateAddr x hx
      · exact .blockAddr x hx
      · exact .outside (changesOutside_refl t)
    · exact ⟨a, u, rfl, hu, .inl (.outside (changesOutside_observe u o))⟩
    · exact ⟨a, u, rfl, hu, .inr ⟨.inl ⟨rest, rfl⟩, u, changesOutside_refl u, rfl⟩⟩
    · exact ⟨a, u, rfl, hu, .inr ⟨.inr ⟨c, rest, rfl⟩, _, changesOutside_drawWrites c u u, rfl⟩⟩
    · exact ⟨a, u, rfl, hu, .inl (.command c x hrun (changesOutside_settleRace c os u x))⟩
  · exact .inl ⟨rfl, changesOutside_memWrite _ hlen⟩
  · exact .inl ⟨rfl, changesOutside_observe _ o⟩

/-! ## What stays around the addressed instance -/

/-- Only the addressed instance's registers, memory, what is given back and the count of draws may differ, and the
window stands where it stood. -/
structure KeepsAround (s t : State) : Prop where
  base : t.blk.base = s.blk.base
  others : t.others = s.others
  admitted : t.admitted = s.admitted
  stateOrder : t.stateOrder = s.stateOrder
  host : t.host = s.host

theorem KeepsAround.trans {s t u : State} (h : KeepsAround s t) (k : KeepsAround t u) : KeepsAround s u :=
  ⟨k.base.trans h.base, k.others.trans h.others, k.admitted.trans h.admitted, k.stateOrder.trans h.stateOrder,
    k.host.trans h.host⟩

theorem ChangesOutside.blk_eq {s t : State} (h : ChangesOutside s t) : t.blk = s.blk := by rw [h.2]

theorem ChangesOutside.keepsAround {s t : State} (h : ChangesOutside s t) : KeepsAround s t := by
  rw [h.2]
  exact ⟨rfl, rfl, rfl, rfl, rfl⟩

theorem exec_keepsAround {i : Instr} {s t : State} (h : exec i s = .next t) : KeepsAround s t := by
  rcases exec_cases h with ⟨f, x, -, rfl⟩ | ⟨-, r, -, rfl⟩ | ⟨-, v, rfl⟩ | ⟨-, v, rfl⟩ | ⟨-, bs, -, -, -, rfl⟩ <;>
    exact ⟨rfl, rfl, rfl, rfl, rfl⟩

theorem runCommand_keepsAround {c : Word} {s t : State} (h : runCommand c s = .next t) : KeepsAround s t := by
  rcases runCommand_cases h with ⟨-, rfl⟩ | ⟨-, -, rfl⟩ | ⟨-, i, -, hexec⟩
  · exact ⟨rfl, rfl, rfl, rfl, rfl⟩
  · exact ⟨rfl, rfl, rfl, rfl, rfl⟩
  · exact exec_keepsAround hexec

theorem ActsOnInstance.keepsAround {s t : State} (h : ActsOnInstance s t) : KeepsAround s t := by
  cases h with
  | command c u hrun hafter => exact (runCommand_keepsAround hrun).trans hafter.keepsAround
  | stateAddr x ht => subst ht; exact ⟨rfl, rfl, rfl, rfl, rfl⟩
  | blockAddr x ht => subst ht; exact ⟨rfl, rfl, rfl, rfl, rfl⟩
  | outside h => exact h.keepsAround

theorem ResetsInstance.keepsAround {s t : State} (h : ResetsInstance s t) : KeepsAround s t := by
  obtain ⟨u, hu, rfl⟩ := h
  exact hu.keepsAround.trans ⟨rfl, rfl, rfl, rfl, rfl⟩

/-! ## A recorded fault stays (R36, R266, R267) -/

/-- A faulted instance discards the word (R266), so an input but a reset can only replace its address registers. -/
theorem ActsOnInstance.faulted_blk {s t : State} (h : ActsOnInstance s t) (hf : s.blk.faulted = true) :
    ∃ x y, t.blk = { s.blk with stateAddr := x, blockAddr := y } := by
  cases h with
  | command c u hrun hafter =>
    have hu : s = u := by simpa [runCommand, hf] using hrun
    exact ⟨_, _, hafter.blk_eq.trans (congrArg State.blk hu.symm)⟩
  | stateAddr x ht => exact ⟨x, _, congrArg State.blk ht⟩
  | blockAddr x ht => exact ⟨_, x, congrArg State.blk ht⟩
  | outside h => exact ⟨_, _, h.blk_eq⟩

/-- Settles O7: the faulted instance is the addressed one, which discards commands, or one that the step does not
act on. -/
theorem faultIsStickyUntilReset : Obligations.FaultIsStickyUntilReset := by
  unfold Obligations.FaultIsStickyUntilReset
  intro s t hstep hreset hresetDuring b hb hf
  rcases step_acts hstep with ⟨-, hout⟩ | ⟨a, u, -, hsel, hact | ⟨⟨rest, hh⟩ | ⟨c, rest, hh⟩, -⟩⟩
  · refine ⟨b, ?_, rfl, rfl, rfl, rfl, rfl, rfl⟩
    rwa [hout.blk_eq, hout.keepsAround.others]
  · obtain ⟨-, hperm, -⟩ := select_some hsel
    rcases List.mem_cons.1 (hperm.mem_iff.2 hb) with rfl | hother
    · obtain ⟨x, y, hblk⟩ := hact.faulted_blk hf
      exact ⟨t.blk, List.mem_cons_self, by rw [hblk]; exact ⟨rfl, rfl, rfl, rfl, rfl, rfl⟩⟩
    · refine ⟨b, List.mem_cons_of_mem _ ?_, rfl, rfl, rfl, rfl, rfl, rfl⟩
      rwa [hact.keepsAround.others]
  · exact absurd hh (hreset a rest)
  · exact absurd hh (hresetDuring a c rest)

/-- Settles O8: the instance acted on is the one that the selection puts in `State.blk`. -/
theorem otherInstancesKeepTheirRegisters : Obligations.OtherInstancesKeepTheirRegisters := by
  unfold Obligations.OtherInstancesKeepTheirRegisters
  intro s t hstep
  rcases step_acts hstep with ⟨hnone, hout⟩ | ⟨a, u, hsome, hsel, hact⟩
  · have hk := hout.keepsAround
    refine ⟨hk.admitted, hk.stateOrder, hk.host, fun _ => ⟨hout.blk_eq, hk.others⟩, fun a ha => ?_⟩
    rw [hnone] at ha
    cases ha
  · obtain ⟨hdec, hperm, hu⟩ := select_some hsel
    have hk : KeepsAround u t := hact.elim (·.keepsAround) (·.2.keepsAround)
    obtain ⟨hlow, hhigh⟩ := (Block.decodes_iff _ _).1 hdec
    rw [hk.admitted, hk.stateOrder, hk.host, hsome]
    refine ⟨by rw [hu], by rw [hu], by rw [hu], fun hnone => (Option.some_ne_none a hnone).elim, fun a' ha' => ?_⟩
    obtain rfl := Option.some.inj ha'
    exact ⟨u.blk, hlow, hhigh, by rwa [hk.others], hk.base⟩

/-! ## Legal registers (R26 to R32) -/

theorem mem_allFaultCodes (f : FaultCode) : f ∈ allFaultCodes := by cases f <;> decide

theorem mem_families (f : Family) : f ∈ [Family.F0, Family.F1, Family.F2] := by cases f <;> decide

/-- The singleton ids of this build are the family codes, and RESULT may hold them (R163). -/
theorem resultLegal_singletonId (f : Family) : resultLegal (singletonId implGeneric f) := by cases f <;> decide

theorem Block.Legal.withResult {b : Block} (h : b.Legal) {r : Word} (hr : resultLegal r) :
    Block.Legal { b with result := r } := by
  obtain ⟨hstatus, heng, -, hfcmd, hfaddr⟩ := h
  exact ⟨hstatus, heng, hr, hfcmd, hfaddr⟩

theorem Block.Legal.withEng {b : Block} (h : b.Legal) (f : Family) :
    Block.Legal { b with eng := engWord implGeneric f } := by
  obtain ⟨hstatus, -, hresult, hfcmd, hfaddr⟩ := h
  exact ⟨hstatus, .inr ⟨f, mem_families f, rfl⟩, hresult, hfcmd, hfaddr⟩

/-- Fault entry leaves legal registers when it records an address for BUS_ERROR only (R32, R262). -/
theorem Block.Legal.withFault {b : Block} (h : b.Legal) (c : Word) {f : FaultCode} {x : Addr}
    (hx : f ≠ .busError → x = 0) : Block.Legal { b with status := statusWord f, fcmd := c, faddr := x } := by
  obtain ⟨-, heng, hresult, -, -⟩ := h
  refine ⟨.inr ⟨f, mem_allFaultCodes f, rfl⟩, heng, hresult, fun hzero => ?_, fun hne => hx ?_⟩
  · have hbit := faulted_statusWord f
    rw [show statusWord f = 0 from hzero] at hbit
    simp at hbit
  · rintro rfl
    exact hne rfl

theorem Block.atReset_legal (base : Addr) : (Block.atReset base).Legal :=
  ⟨.inl rfl, .inl rfl, List.mem_cons_self, fun _ => rfl, fun _ => rfl⟩

/-! ## The invariant -/

/-- The invariant does not tell the addressed instance from the others. -/
theorem inv_iff_forall (s : State) : s.Inv ↔ s.mem.wf = true ∧ ∀ b ∈ s.blk :: s.others, b.Legal := by
  rw [List.forall_mem_cons]

theorem select_keeps_inv {s u : State} {a : Addr} (h : s.select a = some u) (hinv : s.Inv) : u.Inv := by
  obtain ⟨-, hperm, hu⟩ := select_some h
  rw [inv_iff_forall] at hinv ⊢
  exact ⟨by rw [hu]; exact hinv.1, fun b hb => hinv.2 b (hperm.mem_iff.1 hb)⟩

theorem ChangesOutside.keeps_inv {s t : State} (h : ChangesOutside s t) (hinv : s.Inv) : t.Inv := by
  obtain ⟨hmem, hblk, hothers⟩ := hinv
  exact ⟨h.1 hmem, by rw [h.blk_eq]; exact hblk, by rw [h.keepsAround.others]; exact hothers⟩

/-- Each command leaves legal registers and canonical memory (R26 to R28, R31, R32). -/
theorem exec_keeps_inv {i : Instr} {s t : State} (h : exec i s = .next t) (hinv : s.Inv) : t.Inv := by
  obtain ⟨hmem, hblk, hothers⟩ := hinv
  rcases exec_cases h with ⟨f, x, hx, rfl⟩ | ⟨-, r, hr, rfl⟩ | ⟨-, v, rfl⟩ | ⟨-, v, rfl⟩ | ⟨-, bs, -, hlen, -, rfl⟩
  · exact ⟨hmem, hblk.withFault _ hx, hothers⟩
  · exact ⟨hmem, hblk.withResult hr, hothers⟩
  · exact ⟨hmem, hblk.withEng _, hothers⟩
  · exact ⟨hmem, (hblk.withEng _).withResult (resultLegal_singletonId _), hothers⟩
  · exact ⟨wf_writeBytes bs hlen hmem, hblk, hothers⟩

theorem runCommand_keeps_inv {c : Word} {s t : State} (h : runCommand c s = .next t) (hinv : s.Inv) : t.Inv := by
  rcases runCommand_cases h with ⟨-, rfl⟩ | ⟨-, -, rfl⟩ | ⟨-, i, -, hexec⟩
  · exact hinv
  · obtain ⟨hmem, hblk, hothers⟩ := hinv
    exact ⟨hmem, hblk.withFault c fun _ => rfl, hothers⟩
  · exact exec_keeps_inv hexec hinv

theorem ActsOnInstance.keeps_inv {s t : State} (h : ActsOnInstance s t) (hinv : s.Inv) : t.Inv := by
  cases h with
  | command c u hrun hafter => exact hafter.keeps_inv (runCommand_keeps_inv hrun hinv)
  | stateAddr x ht => subst ht; exact hinv
  | blockAddr x ht => subst ht; exact hinv
  | outside h => exact h.keeps_inv hinv

theorem ResetsInstance.keeps_inv {s t : State} (h : ResetsInstance s t) (hinv : s.Inv) : t.Inv := by
  obtain ⟨u, hu, rfl⟩ := h
  obtain ⟨hmem, -, hothers⟩ := hu.keeps_inv hinv
  exact ⟨hmem, Block.atReset_legal _, hothers⟩

/-- Settles O10: the selection reorders the instances, and whatever the input then does to the addressed one leaves
its registers legal. -/
theorem invariantKeptByEveryStep : Obligations.InvariantKeptByEveryStep := by
  unfold Obligations.InvariantKeptByEveryStep
  intro s t hinv hstep
  have htaken : { s with host := s.host.tail }.Inv := hinv
  rcases step_acts hstep with ⟨-, hout⟩ | ⟨a, u, -, hsel, hact⟩
  · exact hout.keeps_inv htaken
  · have hu : u.Inv := select_keeps_inv hsel htaken
    exact hact.elim (·.keeps_inv hu) (·.2.keeps_inv hu)

end Sys2Proof.Machine
end

section
/-! PROOFS. Accesses to the register window at the level of a step (R20, R22, R25): what an aligned access reaches,
the refusals, host reads, and the two halves of an address register. -/

namespace Sys2Proof.Machine

open Sys2Proof.Claims

/-! ## One access -/

theorem step_cons {s : State} {e : HostEvent} {rest : List HostEvent} (hh : s.host = e :: rest) :
    step s = hostEvent e { s with host := rest } := by
  rw [step, hh]

theorem windowWrite_ok {w : AccessWidth} {a : Addr} {v : Word} {s t : State} {r : Reg}
    (hs : s.select a = some t) (hr : accessReg w a t.blk = .ok r) : windowWrite w a v s = writeReg r v t := by
  simp [windowWrite, hs, hr]

theorem windowRead_ok {w : AccessWidth} {a : Addr} {s t : State} {r : Reg}
    (hs : s.select a = some t) (hr : accessReg w a t.blk = .ok r) :
    windowRead w a s = .next (t.observe (.register r (readReg r t.blk))) := by
  simp [windowRead, hs, hr]

theorem windowWrite_refused {w : AccessWidth} {a : Addr} {v : Word} {s t : State} {e : Refusal}
    (hs : s.select a = some t) (he : accessReg w a t.blk = .error e) : windowWrite w a v s = .refused e := by
  simp [windowWrite, hs, he]

theorem windowRead_refused {w : AccessWidth} {a : Addr} {s t : State} {e : Refusal}
    (hs : s.select a = some t) (he : accessReg w a t.blk = .error e) : windowRead w a s = .refused e := by
  simp [windowRead, hs, he]

/-! ## The register an access reaches -/

theorem accessReg_width {w : AccessWidth} (hw : w ≠ .w32) (a : Addr) (b : Block) :
    accessReg w a b = .error .accessWidth := by
  simp [accessReg, hw]

theorem accessReg_misaligned {a : Addr} (ha : a.toNat % 4 ≠ 0) (b : Block) :
    accessReg .w32 a b = .error .accessMisaligned := by
  simp [accessReg, ha]

/-- Every register stands at a multiple of four inside the window (R20). -/
theorem regAt_aligned_lt {off : Nat} {r : Reg} (h : regAt? off = some r) : off % 4 = 0 ∧ off < 64 := by
  rw [← regOffset_of_regAt h]
  cases r <;> decide

theorem regAt_reserved {off : Nat} (h : off ∈ [0x24, 0x30, 0x34, 0x38, 0x3C]) :
    off % 4 = 0 ∧ regAt? off = none := by
  revert off
  decide

/-- A host write to a read-only register has no effect (R22). -/
theorem regAt_readOnly {off : Nat} (h : off ∈ [0x04, 0x08, 0x0C, 0x20, 0x28, 0x2C]) :
    ∃ r, regAt? off = some r ∧ ∀ v s, writeReg r v s = .next s := by
  simp only [List.mem_cons, List.not_mem_nil, or_false] at h
  rcases h with rfl | rfl | rfl | rfl | rfl | rfl <;> exact ⟨_, rfl, fun _ _ => rfl⟩

theorem accessReg_reserved {a : Addr} {b : Block} {off : Nat} (hbase : b.base.toNat % 64 = 0)
    (haddr : a.toNat = b.base.toNat + off) (hoff : off ∈ [0x24, 0x30, 0x34, 0x38, 0x3C]) :
    accessReg .w32 a b = .error .accessReserved := by
  obtain ⟨haligned, hnone⟩ := regAt_reserved hoff
  rw [accessReg_offset hbase haddr haligned, hnone]
  rfl

theorem accessReg_of_reaches {s t : State} {a : Addr} {off : Nat} {r : Reg} (h : reaches s t a off)
    (hreg : regAt? off = some r) : accessReg .w32 a t.blk = .ok r := by
  obtain ⟨-, hbase, haddr⟩ := h
  rw [accessReg_offset hbase haddr (regAt_aligned_lt hreg).1, hreg]
  rfl

/-! ## One step of the host -/

/-- An access that reaches no register is refused with the access's own reason, written or read. -/
theorem step_access_refused {s t : State} {w : AccessWidth} {a : Addr} {rest : List HostEvent} {e : Refusal}
    (hs : { s with host := rest }.select a = some t) (he : accessReg w a t.blk = .error e) (v : Word) :
    (s.host = .write w a v :: rest → step s = .refused e) ∧ (s.host = .read w a :: rest → step s = .refused e) :=
  ⟨fun hh => (step_cons hh).trans (windowWrite_refused hs he),
    fun hh => (step_cons hh).trans (windowRead_refused hs he)⟩

theorem step_write {s t : State} {a : Addr} {off : Nat} {v : Word} {rest : List HostEvent} {r : Reg}
    (hh : s.host = .write .w32 a v :: rest) (h : reaches { s with host := rest } t a off)
    (hreg : regAt? off = some r) : step s = writeReg r v t :=
  (step_cons hh).trans (windowWrite_ok h.1 (accessReg_of_reaches h hreg))

theorem step_read {s t : State} {a : Addr} {off : Nat} {rest : List HostEvent} {r : Reg}
    (hh : s.host = .read .w32 a :: rest) (h : reaches { s with host := rest } t a off)
    (hreg : regAt? off = some r) : step s = .next (t.observe (.register r (readReg r t.blk))) :=
  (step_cons hh).trans (windowRead_ok h.1 (accessReg_of_reaches h hreg))

/-- The addressed instance reaches its own window. -/
theorem reaches_self {s : State} {off : Nat} (hbase : s.blk.base.toNat % 64 = 0) (hoff : off < 64) :
    reaches s s (s.blk.base + BitVec.ofNat 64 off) off := by
  have haddr : (s.blk.base + BitVec.ofNat 64 off).toNat = s.blk.base.toNat + off := by
    have hlt := s.blk.base.isLt
    rw [BitVec.toNat_add, BitVec.toNat_ofNat]
    omega
  exact ⟨select_self ((Block.decodes_iff _ _).2 (by omega)), hbase, haddr⟩

/-! ## The obligations on single accesses -/

/-- Settles O40: the address keeps the offset's remainder at an aligned base, and the reserved offsets hold no
register. -/
theorem hostAccessRules : Obligations.HostAccessRules := by
  unfold Obligations.HostAccessRules
  intro s t a off v rest _ h
  have ⟨hsel, hbase, haddr⟩ := h
  refine ⟨fun w hw => step_access_refused hsel (accessReg_width hw a t.blk) v,
    fun hoff => step_access_refused hsel (accessReg_misaligned (by omega) t.blk) v,
    fun hoff => step_access_refused hsel (accessReg_reserved hbase haddr hoff) v, fun hoff hh => ?_⟩
  obtain ⟨r, hreg, hnoEffect⟩ := regAt_readOnly hoff
  rw [step_write hh h hreg, hnoEffect]

/-- The table of R20 lists the register at each offset beside the value that a read of it returns. -/
theorem readTable_entry {b : Block} {p : Nat × Reg × Word} (h : p ∈ readTable b) :
    regAt? p.1 = some p.2.1 ∧ readReg p.2.1 b = p.2.2 := by
  simp only [readTable, List.mem_cons, List.not_mem_nil, or_false] at h
  rcases h with rfl | rfl | rfl | rfl | rfl | rfl | rfl | rfl | rfl | rfl | rfl <;> exact ⟨rfl, rfl⟩

/-- Settles O41: the read reaches the register that the table lists, and gives back the value listed. -/
theorem hostReadReturnsTheRegister : Obligations.HostReadReturnsTheRegister := by
  unfold Obligations.HostReadReturnsTheRegister
  intro s t a rest hh p hp h
  obtain ⟨hreg, hvalue⟩ := readTable_entry hp
  rw [step_read hh h hreg, hvalue]
  rfl

theorem runCommand_decoded {c : Word} {s : State} {i : Instr} (hf : s.blk.faulted = false)
    (hdec : decode c = .ok i) : runCommand c s = exec i s := by
  simp [runCommand, hf, hdec]

/-- Settles O5: offset 0 is CMD, and an unfaulted instance decodes the word. -/
theorem stepRunsTheDecodedCommand : Obligations.StepRunsTheDecodedCommand := by
  unfold Obligations.StepRunsTheDecodedCommand
  intro s t a c rest i hh h hf hdec
  exact (step_write hh h rfl).trans (runCommand_decoded hf hdec)

/-! ## The halves of an address register (R88, R295) -/

@[simp] theorem lowHalf_append (hi lo : Word) : lowHalf (hi ++ lo) = lo :=
  BitVec.extractLsb'_append_eq_right

@[simp] theorem highHalf_append (hi lo : Word) : highHalf (hi ++ lo) = hi :=
  BitVec.extractLsb'_append_eq_left

theorem withHigh_withLow (x : Addr) (lo hi : Word) : withHigh (withLow x lo) hi = hi ++ lo := by
  simp [withHigh, withLow]

theorem withLow_withHigh (x : Addr) (lo hi : Word) : withLow (withHigh x hi) lo = hi ++ lo := by
  simp [withHigh, withLow]

theorem step_write_own {s : State} {off : Nat} {v : Word} {rest : List HostEvent} {r : Reg}
    (hbase : s.blk.base.toNat % 64 = 0) (hh : s.host = .write .w32 (s.blk.base + BitVec.ofNat 64 off) v :: rest)
    (hreg : regAt? off = some r) : step s = writeReg r v { s with host := rest } :=
  step_write hh (reaches_self hbase (regAt_aligned_lt hreg).2) hreg

/-- Two host writes to the addressed instance's own aligned window are the two register writes in turn. -/
theorem runSteps_two_writes {s u : State} {b : Block} {p q : Nat × Word} {r r' : Reg} {rest : List HostEvent}
    (hbase : s.blk.base.toNat % 64 = 0)
    (hh : s.host = [p, q].map (fun p => HostEvent.write .w32 (s.blk.base + BitVec.ofNat 64 p.1) p.2) ++ rest)
    (hp : regAt? p.1 = some r) (hq : regAt? q.1 = some r')
    (hfirst : ∀ host, writeReg r p.2 { s with host := host } = .next { s with host := host, blk := b })
    (hb : b.base = s.blk.base) (hsecond : writeReg r' q.2 { s with host := rest, blk := b } = .next u) :
    runSteps 2 s = .next u := by
  have hbase' : b.base.toNat % 64 = 0 := by rwa [hb]
  rw [runSteps_succ ((step_write_own hbase hh hp).trans (hfirst _)),
    runSteps_succ ((step_write_own hbase' (by rw [hb]; rfl) hq).trans hsecond), runSteps_zero]

/-- Settles O42: the second write replaces the half that the first one left. -/
theorem addressHalvesInEitherOrder : Obligations.AddressHalvesInEitherOrder := by
  unfold Obligations.AddressHalvesInEitherOrder
  intro s lo hi rest hbase
  simp only [List.forall_mem_cons, List.not_mem_nil, false_imp_iff, implies_true, and_true]
  refine ⟨⟨fun hh => ?_, fun hh => ?_⟩, fun hh => ?_, fun hh => ?_⟩
  · refine runSteps_two_writes (b := { s.blk with stateAddr := withLow s.blk.stateAddr lo }) hbase hh rfl rfl
      (fun _ => rfl) rfl ?_
    simp only [writeReg, State.setStateAddr, withHigh_withLow]
  · refine runSteps_two_writes (b := { s.blk with stateAddr := withHigh s.blk.stateAddr hi }) hbase hh rfl rfl
      (fun _ => rfl) rfl ?_
    simp only [writeReg, State.setStateAddr, withLow_withHigh]
  · refine runSteps_two_writes (b := { s.blk with blockAddr := withLow s.blk.blockAddr lo }) hbase hh rfl rfl
      (fun _ => rfl) rfl ?_
    simp only [writeReg, State.setBlockAddr, withHigh_withLow]
  · refine runSteps_two_writes (b := { s.blk with blockAddr := withHigh s.blk.blockAddr hi }) hbase hh rfl rfl
      (fun _ => rfl) rfl ?_
    simp only [writeReg, State.setBlockAddr, withLow_withHigh]

end Sys2Proof.Machine
end

section
/-! PROOFS. The selection of an instance (R20, R38), what each command leaves (R26 to R32), and the family that no
legal instance holds (R28, R161). -/

namespace Sys2Proof.Machine

/-! ## The selection (R20, R38) -/

/-- Settles O50: the selection answers, by the model's own lemmas, exactly when some window holds the address. -/
theorem addressSelectsTheInstanceOfItsWindow : Obligations.AddressSelectsTheInstanceOfItsWindow := by
  unfold Obligations.AddressSelectsTheInstanceOfItsWindow
  simp only [← Block.decodes_iff]
  intro s a
  refine ⟨fun ⟨b, hb, hdec⟩ => ?_, fun hlow hhigh => select_self ((Block.decodes_iff _ _).2 ⟨hlow, hhigh⟩),
    fun hall => select_none.2 fun b hb => Bool.eq_false_of_not_eq_true (hall b hb)⟩
  cases hsel : s.select a with
  | none =>
    rw [select_none.1 hsel b hb] at hdec
    cases hdec
  | some t =>
    obtain ⟨ht, hperm, hrest⟩ := select_some hsel
    exact ⟨t, rfl, ((Block.decodes_iff _ _).1 ht).1, ((Block.decodes_iff _ _).1 ht).2, hperm, hrest⟩

/-! ## What each command leaves -/

/-- Settles O26: the five kinds of answer of `exec_cases`, and the operations that give each. -/
theorem registersEachCommandLeaves : Obligations.RegistersEachCommandLeaves := by
  unfold Obligations.RegistersEachCommandLeaves
  intro i s t h
  rcases exec_cases h with ⟨f, x, -, rfl⟩ | ⟨hop, r, -, rfl⟩ | ⟨hop, v, rfl⟩ | ⟨hop, v, rfl⟩
    | ⟨hop, bs, -, -, -, rfl⟩ <;>
    refine ⟨rfl, rfl, rfl, rfl, rfl, rfl, rfl, rfl, rfl, ?_⟩
  · exact ⟨.inr (State.raiseFault_faulted _ _ _ _), fun _ => rfl, fun _ _ => rfl, fun _ _ => rfl⟩
  · have hwrites : opOf i ∉ ([.LDIV, .ENGNEW, .COMPRESS] : List Op) := by
      revert hop
      cases opOf i <;> decide
    exact ⟨.inl ⟨rfl, rfl, rfl⟩, fun hleaves => absurd hleaves hwrites, fun _ _ => rfl, fun _ _ => rfl⟩
  · exact ⟨.inl ⟨rfl, rfl, rfl⟩, fun _ => rfl, fun hne _ => absurd hop hne, fun _ _ => rfl⟩
  · have hwrites : opOf i ∉ ([.LDIV, .ENGNEW, .COMPRESS] : List Op) := by rw [hop]; decide
    exact ⟨.inl ⟨rfl, rfl, rfl⟩, fun hleaves => absurd hleaves hwrites, fun _ hne => absurd hop hne, fun _ _ => rfl⟩
  · have hstores : opOf i = .LDIV ∨ opOf i = .COMPRESS := by simpa using hop
    exact ⟨.inl ⟨rfl, rfl, rfl⟩, fun _ => rfl, fun _ _ => rfl,
      fun hldiv hcompress => (hstores.elim hldiv hcompress).elim⟩

/-! ## ENG.FAMILY = 3 -/

theorem compressCheck_stuck {s : State} (hb : s.blk.bound = true) (ha : avail s.blk.engImpl = true)
    (hf : familyOfCode? s.blk.engFamily = none) : compressCheck s = .stuck := by
  simp [compressCheck, hb, ha, hf]

/-- A legal ENG that is bound holds the code of one of the three families (R28). -/
theorem Block.Legal.engFamily {b : Block} (h : b.Legal) (hbound : b.bound = true) :
    ∃ f, b.engFamily = familyCode f := by
  obtain ⟨-, hzero | ⟨f, -, heng⟩, -⟩ := h
  · simp [Block.bound, hzero] at hbound
  · exact ⟨f, by rw [Block.engFamily, heng, family_engWord]⟩

/-- Settles O15: the code 3 names no routine, and it is no family's code. -/
theorem compressStopsOnReservedFamily : Obligations.CompressStopsOnReservedFamily := by
  unfold Obligations.CompressStopsOnReservedFamily
  refine ⟨fun s hb ha hf => ?_, fun b hlegal ⟨hbound, hfamily⟩ => ?_⟩
  · have hstuck : compressCheck s = .stuck := compressCheck_stuck hb ha (by rw [hf]; rfl)
    simp only [exec, execCompress, hstuck]
  · obtain ⟨f, hf⟩ := hlegal.engFamily hbound
    rw [hfamily] at hf
    cases f <;> exact absurd hf (by decide)

end Sys2Proof.Machine
end

section
/-! PROOFS. Host memory (spec/20_memory.md): which bytes a command reads and stores to (R50, R61, R164), admission of a
region (R51, R52), the host's stores and loads (R62, R66), and commands that other agents race with (R63, U3). -/

namespace Sys2Proof.Machine

/-! ## The bytes a command touches -/

/-- Settles O27: of the five kinds of answer of `exec_cases` only the last one stores, and it stores to the range that
`memWrites` gives. -/
theorem commandStoresOnlyToItsRegion : Obligations.CommandStoresOnlyToItsRegion := by
  unfold Obligations.CommandStoresOnlyToItsRegion
  intro i s t a h houtside
  rcases exec_cases h with ⟨f, x, -, rfl⟩ | ⟨-, r, -, rfl⟩ | ⟨-, v, rfl⟩ | ⟨-, v, rfl⟩
    | ⟨-, bs, -, -, hwrites, rfl⟩
  · rfl
  · rfl
  · rfl
  · rfl
  · rw [hwrites, spansHave_cons, spansHave_nil, Bool.or_false, Span.has_false_iff] at houtside
    exact readByte_writeBytes_outside bs houtside

theorem memReads_compress_run {s : State} {f : Family} (h : compressCheck s = .run f) :
    memReads .compress s = [s.blockSpan f, s.stateSpan f] := by
  simp only [memReads, h]

theorem memWrites_compress_run {s : State} {f : Family} (h : compressCheck s = .run f) :
    memWrites .compress s = [s.stateSpan f] := by
  simp only [memWrites, h]

/-- Two ranges that do not overlap share no byte (R164). -/
theorem not_has_of_not_spansOverlap {r q : Span} (h : spansOverlap r q = false) (a : Nat) :
    ¬ (q.has a = true ∧ r.has a = true) := by
  rw [spansOverlap_false_iff] at h
  rw [Span.has_iff, Span.has_iff]
  omega

/-- Settles O28: the last check of a COMPRESS that runs is that its two regions do not overlap. -/
theorem compressRegionsShareNoByte : Obligations.CompressRegionsShareNoByte := by
  unfold Obligations.CompressRegionsShareNoByte
  intro s f hrun
  obtain ⟨-, -, -, -, -, hdisjoint⟩ := compressCheck_run hrun
  exact ⟨memReads_compress_run hrun, memWrites_compress_run hrun, not_has_of_not_spansOverlap hdisjoint⟩

/-! ## Admission (R51, R52) -/

theorem inWindow_of_decodes {s : State} {a : Nat} (h : s.blk.decodes a = true) : s.inWindow a = true := by
  rw [State.inWindow, h, Bool.true_or]

/-- Settles O38: a byte in the addressed instance's window is not admitted by the platform (R51). -/
theorem admissionOfARegion : Obligations.AdmissionOfARegion := by
  unfold Obligations.AdmissionOfARegion
  intro s a n
  refine ⟨admit_iff s a n, fun k hk hlow hhigh => Bool.eq_false_of_not_eq_true fun hadmits => ?_⟩
  have hin : s.inWindow (a.toNat + k) = true := inWindow_of_decodes ((Block.decodes_iff _ _).2 ⟨hlow, hhigh⟩)
  have hout : s.inWindow (a.toNat + k) = false := memAdmit_not_inWindow (((admit_iff s a n).1 hadmits).2 k hk)
  exact Bool.false_ne_true (hout.symm.trans hin)

/-! ## Host stores and loads (R62, R66) -/

theorem memoryRefusal_none {s : State} {a : Addr} {n : Nat} (hle : a.toNat + n ≤ addrSpace)
    (hwin : ∀ k < n, s.inWindow (a.toNat + k) = false) : memoryRefusal s a n = none := by
  have hany : ((List.range n).any fun k => s.inWindow (a.toNat + k)) = false := by simpa using hwin
  rw [memoryRefusal, if_neg (Nat.not_lt.2 hle), hany, if_neg Bool.false_ne_true]

theorem step_store {s : State} {a : Addr} {bs : List Byte} {rest : List HostEvent}
    (hh : s.host = .store a bs :: rest) (hle : a.toNat + bs.length ≤ addrSpace)
    (hwin : ∀ k < bs.length, s.inWindow (a.toNat + k) = false) :
    step s = .next ({ s with host := rest }.memWrite a.toNat bs) := by
  have hok : memoryRefusal { s with host := rest } a bs.length = none := memoryRefusal_none hle hwin
  rw [step_cons hh, hostEvent, hostStore, hok]

theorem step_load {s : State} {a : Addr} {n : Nat} {rest : List HostEvent}
    (hh : s.host = .load a n :: rest) (hle : a.toNat + n ≤ addrSpace)
    (hwin : ∀ k < n, s.inWindow (a.toNat + k) = false) :
    step s = .next ({ s with host := rest }.observe (.memory a (readBytes s.mem a.toNat n))) := by
  have hok : memoryRefusal { s with host := rest } a n = none := memoryRefusal_none hle hwin
  rw [step_cons hh, hostEvent, hostLoad, hok]

/-- Settles O39: the store leaves the windows where they were, so that the load is not refused either, and it reads
back what was written. -/
theorem hostStoreThenLoad : Obligations.HostStoreThenLoad := by
  unfold Obligations.HostStoreThenLoad
  intro s a bs rest hwf hle hwin hh
  refine ⟨_, step_store hh hle hwin, rfl, fun x hx => readByte_writeBytes_outside bs hx, ?_⟩
  have hload := step_load (s := { s with host := .load a bs.length :: rest }.memWrite a.toNat bs) rfl hle hwin
  rwa [State.memWrite_mem, readBytes_writeBytes bs hle hwf] at hload

/-! ## Races (R63, U3) -/

/-- A command that other agents touch ends as it does alone, settled with what they do. -/
theorem step_racing {s t u : State} {a : Addr} {c : Word} {os : List OtherAccess} {rest : List HostEvent}
    (hh : s.host = .racing a c os :: rest) (hsel : { s with host := rest }.select a = some t)
    (hwin : ∀ o ∈ os, s.inWindow (otherAddr o).toNat = false) (hrun : runCommand c t = .next u) :
    step s = .next (settleRace (wordReads c t) (wordWrites c t) os u) := by
  have hany : (os.any fun o => { s with host := rest }.inWindow (otherAddr o).toNat) = false :=
    List.any_eq_false.2 fun o ho => Bool.eq_false_iff.1 (hwin o ho)
  rw [step_cons hh, hostEvent, racingCommand, hsel]
  simp only [hany, hrun, Bool.false_eq_true, if_false]

theorem select_host {s t : State} {a : Addr} (h : s.select a = some t) : t.host = s.host := by
  rw [(select_some h).2.2]

/-- Settles O45: what the other agents do and the draws leave every register, and reach no byte but those written and
those stored to. -/
theorem raceAffectsOnlyMemory : Obligations.RaceAffectsOnlyMemory := by
  unfold Obligations.RaceAffectsOnlyMemory
  intro s t u a c os rest hh hsel hwin hrun
  have hout := changesOutside_settleRace c os t u
  have hhost : u.host = rest := (runCommand_keepsAround hrun).host.trans (select_host hsel)
  exact ⟨_, step_racing hh hsel hwin hrun, hout.blk_eq, hout.keepsAround.others, hout.keepsAround.host.trans hhost,
    fun x hx hstores => settleRace_outside hx hstores u⟩

/-- An access outside the ranges read and written is no race. -/
theorem otherRaces_eq_false {rs ws : List Span} {o : OtherAccess}
    (h : spansHave (rs ++ ws) (otherAddr o).toNat = false) : otherRaces rs ws o = false := by
  rw [spansHave_append, Bool.or_eq_false_iff] at h
  obtain ⟨hreads, hwrites⟩ := h
  cases o with
  | read y => exact hwrites
  | write y v => exact Bool.or_eq_false_iff.2 ⟨hreads, hwrites⟩
  | lateStore y v => exact Bool.or_eq_false_iff.2 ⟨hreads, hwrites⟩

theorem settleRace_of_no_race {rs ws : List Span} {os : List OtherAccess}
    (h : ∀ o ∈ os, otherRaces rs ws o = false) (s : State) :
    settleRace rs ws os s = os.foldl (otherEffect ws) s := by
  have hany : os.any (otherRaces rs ws) = false := List.any_eq_false.2 fun o ho => Bool.eq_false_iff.1 (h o ho)
  simp only [settleRace, hany, Bool.false_eq_true, if_false]

/-- An access outside the ranges written takes no free value. -/
theorem otherEffect_draws {ws : List Span} {o : OtherAccess} (h : spansHave ws (otherAddr o).toNat = false)
    (s : State) : (otherEffect ws s o).draws = s.draws := by
  cases o with
  | read y =>
    have hread : spansHave ws y.toNat = false := h
    rw [otherEffect, hread, if_neg Bool.false_ne_true, State.observe_draws]
  | write y v => rfl
  | lateStore y v => rfl

theorem otherEffects_draws {ws : List Span} {os : List OtherAccess}
    (h : ∀ o ∈ os, spansHave ws (otherAddr o).toNat = false) (s : State) :
    (os.foldl (otherEffect ws) s).draws = s.draws := by
  induction os generalizing s with
  | nil => rfl
  | cons o os ih =>
    rw [List.forall_mem_cons] at h
    rw [List.foldl_cons, ih h.2, otherEffect_draws h.1]

/-- Settles O46: without a race nothing is drawn, and what the other agents store falls outside the ranges. -/
theorem noRaceWithoutSharedBytes : Obligations.NoRaceWithoutSharedBytes := by
  unfold Obligations.NoRaceWithoutSharedBytes
  intro s t u a c os rest hh hsel hwin hrun huntouched
  have hsettle := settleRace_of_no_race (fun o ho => otherRaces_eq_false (huntouched o ho)) u
  have hwrites : ∀ o ∈ os, spansHave (wordWrites c t) (otherAddr o).toNat = false := fun o ho =>
    (Bool.or_eq_false_iff.1 ((spansHave_append _ _ _).symm.trans (huntouched o ho))).2
  refine ⟨_, step_racing hh hsel hwin hrun, ?_, (changesOutside_settleRace c os t u).blk_eq, fun x hx => ?_⟩
  · rw [hsettle, otherEffects_draws hwrites]
  · have hne : ∀ o ∈ os, (otherAddr o).toNat ≠ x := by
      rintro o ho rfl
      exact Bool.false_ne_true ((huntouched o ho).symm.trans hx)
    rw [hsettle]
    exact otherEffects_outside (fun y v hy => hy.elim (hne _) (hne _)) u

end Sys2Proof.Machine
end

section
/-! PROOFS. The command word (R80 to R85): a word is its five fields, and the words of a row are what the decoder, the
encoder and the match and mask table all describe. -/

namespace Sys2Proof

open Sys2Proof.Claims

/-! ## The five fields of a word (R81) -/

theorem word_eq_fields (c : Word) :
    c = reservedHigh c ++ implField c ++ reserved11 c ++ varField c ++ opField c := by
  unfold reservedHigh implField reserved11 varField opField
  rw [BitVec.extractLsb'_append_extractLsb'_eq_extractLsb' (show 16 = 12 + 4 from rfl),
    BitVec.extractLsb'_append_extractLsb'_eq_extractLsb' (show 12 = 11 + 1 from rfl),
    BitVec.extractLsb'_append_extractLsb'_eq_extractLsb' (show 11 = 8 + 3 from rfl),
    BitVec.extractLsb'_append_extractLsb'_eq_extractLsb' (show 8 = 0 + 8 from rfl)]
  exact BitVec.extractLsb'_eq_self.symm

theorem word_eq_iff_fields_eq (c d : Word) :
    c = d ↔ opField c = opField d ∧ reservedHigh c = reservedHigh d ∧ reserved11 c = reserved11 d
      ∧ varField c = varField d ∧ implField c = implField d := by
  constructor
  · rintro rfl
    exact ⟨rfl, rfl, rfl, rfl, rfl⟩
  · rintro ⟨hop, hhigh, h11, hvar, himpl⟩
    rw [word_eq_fields c, word_eq_fields d, hop, hhigh, h11, hvar, himpl]

theorem encodedFields (i : Instr) : Laws.EncodedFields.Statement i := by
  cases i with
  | qblk var => exact Laws.EncodedFields.qblk var
  | qstl var => exact Laws.EncodedFields.qstl var
  | qdgl var => exact Laws.EncodedFields.qdgl var
  | qpdl var => exact Laws.EncodedFields.qpdl var
  | ldiv var => exact Laws.EncodedFields.ldiv var
  | fast => exact Laws.EncodedFields.fast
  | fastrt => exact Laws.EncodedFields.fastrt
  | avail impl => exact Laws.EncodedFields.avail impl
  | engnew var impl => exact Laws.EncodedFields.engnew var impl
  | engref var impl => exact Laws.EncodedFields.engref var impl
  | compress => exact Laws.EncodedFields.compress

/-! ## Operations and commands (R84) -/

theorem opCode_not_reserved (o : Op) : ¬ (opCode o < 0x01 ∨ 0x0B < opCode o) := by cases o <;> decide

theorem opOfCode_opCode (o : Op) : opOfCode? (opCode o) = some o := by cases o <;> rfl

theorem opCode_of_opOfCode {x : BitVec 8} {o : Op} (h : opOfCode? x = some o) : opCode o = x :=
  beq_iff_eq.1 (List.find?_some (p := fun o => opCode o == x) h)

theorem opCode_injective : Function.Injective opCode := fun o o' h =>
  Option.some.inj (by rw [← opOfCode_opCode o, h, opOfCode_opCode])

@[simp] theorem opOf_instrOf (o : Op) (var : BitVec 3) (impl : BitVec 4) : opOf (instrOf o var impl) = o := by
  cases o <;> rfl

@[simp] theorem varOf_instrOf (o : Op) (var : BitVec 3) (impl : BitVec 4) :
    varOf (instrOf o var impl) = if usesVar o then var else 0 := by cases o <;> rfl

@[simp] theorem implOf_instrOf (o : Op) (var : BitVec 3) (impl : BitVec 4) :
    implOf (instrOf o var impl) = if usesImpl o then impl else 0 := by cases o <;> rfl

@[simp] theorem instrOf_fields (i : Instr) : instrOf (opOf i) (varOf i) (implOf i) = i := by cases i <;> rfl

theorem varOf_unused {i : Instr} (h : usesVar (opOf i) = false) : varOf i = 0 := by
  rw [← instrOf_fields i, varOf_instrOf, h, if_neg Bool.false_ne_true]

theorem implOf_unused {i : Instr} (h : usesImpl (opOf i) = false) : implOf i = 0 := by
  rw [← instrOf_fields i, implOf_instrOf, h, if_neg Bool.false_ne_true]

/-! ## The words of a row -/

/-- The word `c` is one of the row of `o`: it passes the first four checks of R86. -/
structure InRow (o : Op) (c : Word) : Prop where
  op : opField c = opCode o
  high : reservedHigh c = 0
  bit11 : reserved11 c = 0
  var : usesVar o = false → varField c = 0
  impl : usesImpl o = false → implField c = 0

theorem InRow.op_unique {o o' : Op} {c : Word} (h : InRow o c) (h' : InRow o' c) : o = o' :=
  opCode_injective (h.op.symm.trans h'.op)

theorem inRow_encode (i : Instr) : InRow (opOf i) (encode i) := by
  obtain ⟨hop, hvar, himpl, h11, hhigh⟩ := encodedFields i
  exact ⟨hop, hhigh, h11, fun h => hvar.trans (varOf_unused h), fun h => himpl.trans (implOf_unused h)⟩

/-- The decoder accepts exactly the words of the rows, and reads the row's command from the fields. -/
theorem decode_ok_iff {c : Word} {i : Instr} :
    decode c = .ok i ↔ ∃ o, InRow o c ∧ i = instrOf o (varField c) (implField c) := by
  unfold decode
  constructor
  · intro h
    split at h
    · cases h
    · next o ho =>
      split_ifs at h with hres hvar himpl
      rw [not_or, not_not, not_not] at hres
      rw [not_and, not_not] at hvar himpl
      obtain ⟨hhigh, h11⟩ := hres
      exact ⟨o, ⟨(opCode_of_opOfCode ho).symm, hhigh, h11, hvar, himpl⟩, (Except.ok.inj h).symm⟩
  · rintro ⟨o, ⟨hop, hhigh, h11, hvar, himpl⟩, rfl⟩
    have hres : ¬ (reservedHigh c ≠ 0 ∨ reserved11 c ≠ 0) := not_or.2 ⟨not_not.2 hhigh, not_not.2 h11⟩
    have hvar' : ¬ (usesVar o = false ∧ varField c ≠ 0) := fun h => h.2 (hvar h.1)
    have himpl' : ¬ (usesImpl o = false ∧ implField c ≠ 0) := fun h => h.2 (himpl h.1)
    simp only [hop, opOfCode_opCode, if_neg hres, if_neg hvar', if_neg himpl']

theorem InRow.decode_eq {o : Op} {c : Word} (h : InRow o c) :
    decode c = .ok (instrOf o (varField c) (implField c)) := decode_ok_iff.2 ⟨o, h, rfl⟩

theorem inRow_iff_decode {o : Op} {c : Word} : InRow o c ↔ ∃ i, decode c = .ok i ∧ opOf i = o := by
  constructor
  · exact fun h => ⟨_, h.decode_eq, opOf_instrOf _ _ _⟩
  · rintro ⟨i, hi, rfl⟩
    obtain ⟨o, hrow, rfl⟩ := decode_ok_iff.1 hi
    rwa [opOf_instrOf]

theorem decode_error_of_no_row {c : Word} (h : ∀ o, ¬ InRow o c) : ∃ e, decode c = .error e := by
  cases hdec : decode c with
  | error e => exact ⟨e, rfl⟩
  | ok i => exact absurd (inRow_iff_decode.2 ⟨i, hdec, rfl⟩) (h (opOf i))

/-! ## Encoding and decoding -/

theorem decode_encode (i : Instr) : decode (encode i) = .ok i := by
  obtain ⟨-, hvar, himpl, -, -⟩ := encodedFields i
  rw [(inRow_encode i).decode_eq, hvar, himpl, instrOf_fields]

/-- A word of a row has only the fields that its command keeps. -/
theorem InRow.encode_eq {o : Op} {c : Word} (h : InRow o c) : encode (instrOf o (varField c) (implField c)) = c := by
  obtain ⟨hop, hvar, himpl, h11, hhigh⟩ := encodedFields (instrOf o (varField c) (implField c))
  rw [word_eq_iff_fields_eq, hop, hvar, himpl, h11, hhigh, opOf_instrOf, varOf_instrOf, implOf_instrOf]
  exact ⟨h.op.symm, h.high.symm, h.bit11.symm,
    ite_eq_left_iff.2 fun hused => (h.var (Bool.eq_false_of_not_eq_true hused)).symm,
    ite_eq_left_iff.2 fun hused => (h.impl (Bool.eq_false_of_not_eq_true hused)).symm⟩

/-- Settles O1: what the decoder reads are the fields of a word, and a word of a row has no other content. -/
theorem commandAndWordAgree : Obligations.CommandAndWordAgree := by
  unfold Obligations.CommandAndWordAgree
  intro c i
  constructor
  · intro h
    obtain ⟨o, hrow, rfl⟩ := decode_ok_iff.1 h
    exact hrow.encode_eq
  · rintro rfl
    exact decode_encode i

/-- Settles O3: each of the twelve words is decoded by evaluation. -/
theorem writtenWordsDecode : Obligations.WrittenWordsDecode := by
  unfold Obligations.WrittenWordsDecode
  decide

/-! ## The table of R85 -/

theorem opMask_fields (o : Op) :
    opField (opMask o) = BitVec.allOnes 8 ∧ reservedHigh (opMask o) = BitVec.allOnes 16
      ∧ reserved11 (opMask o) = BitVec.allOnes 1 ∧ varField (opMask o) = (if usesVar o then 0 else BitVec.allOnes 3)
      ∧ implField (opMask o) = if usesImpl o then 0 else BitVec.allOnes 4 := by cases o <;> decide

theorem opMatch_fields (o : Op) :
    opField (opMatch o) = opCode o ∧ reservedHigh (opMatch o) = 0 ∧ reserved11 (opMatch o) = 0
      ∧ varField (opMatch o) = 0 ∧ implField (opMatch o) = 0 := by cases o <;> decide

theorem fields_and (c m : Word) :
    opField (c &&& m) = opField c &&& opField m ∧ reservedHigh (c &&& m) = reservedHigh c &&& reservedHigh m
      ∧ reserved11 (c &&& m) = reserved11 c &&& reserved11 m ∧ varField (c &&& m) = varField c &&& varField m
      ∧ implField (c &&& m) = implField c &&& implField m :=
  ⟨BitVec.extractLsb'_and, BitVec.extractLsb'_and, BitVec.extractLsb'_and, BitVec.extractLsb'_and,
    BitVec.extractLsb'_and⟩

/-- A field that the mask covers only where the command does not use it. -/
theorem and_mask_eq_zero_iff {w : Nat} (x : BitVec w) (used : Bool) :
    (x &&& if used then 0 else BitVec.allOnes w) = 0 ↔ (used = false → x = 0) := by
  cases used <;> simp

/-- R85: the mask covers the fields that the checks compare with 0, and OP. -/
theorem and_opMask_eq_opMatch_iff (o : Op) (c : Word) : c &&& opMask o = opMatch o ↔ InRow o c := by
  obtain ⟨hop, hhigh, h11, hvar, himpl⟩ := fields_and c (opMask o)
  obtain ⟨kop, khigh, k11, kvar, kimpl⟩ := opMask_fields o
  obtain ⟨mop, mhigh, m11, mvar, mimpl⟩ := opMatch_fields o
  rw [word_eq_iff_fields_eq, hop, hhigh, h11, hvar, himpl, kop, khigh, k11, kvar, kimpl, mop, mhigh, m11, mvar, mimpl,
    and_mask_eq_zero_iff, and_mask_eq_zero_iff, BitVec.and_allOnes, BitVec.and_allOnes, BitVec.and_allOnes]
  exact ⟨fun ⟨h1, h2, h3, h4, h5⟩ => ⟨h1, h2, h3, h4, h5⟩, fun h => ⟨h.op, h.high, h.bit11, h.var, h.impl⟩⟩

/-- The rows written out are those of the model's columns. -/
theorem eq_of_mem_opcodeRows {row : Op × Word × Word} (h : row ∈ opcodeRows) :
    row = (row.1, opMatch row.1, opMask row.1) := by
  have hrows : opcodeRows = allOps.map fun o => (o, opMatch o, opMask o) := rfl
  rw [hrows, List.mem_map] at h
  obtain ⟨o, -, rfl⟩ := h
  rfl

theorem row_selects_iff {row : Op × Word × Word} (h : row ∈ opcodeRows) (c : Word) :
    c &&& row.2.2 = row.2.1 ↔ InRow row.1 c := by
  rw [eq_of_mem_opcodeRows h]
  exact and_opMask_eq_opMatch_iff row.1 c

/-- Settles O2: a row selects the words that the decoder reads as its command, and two rows differ in OP. -/
theorem rowsOfTheOpcodeTable : Obligations.RowsOfTheOpcodeTable := by
  unfold Obligations.RowsOfTheOpcodeTable
  refine ⟨fun row hrow c => ⟨(row_selects_iff hrow c).trans inRow_iff_decode, fun i hdec hop => ?_⟩,
    fun row hrow row' hrow' c h h' => ?_⟩
  · obtain ⟨o, -, rfl⟩ := decode_ok_iff.1 hdec
    rw [opOf_instrOf] at hop
    subst hop
    exact ⟨varOf_instrOf _ _ _, implOf_instrOf _ _ _⟩
  · rw [row_selects_iff hrow] at h
    rw [row_selects_iff hrow'] at h'
    rw [eq_of_mem_opcodeRows hrow, eq_of_mem_opcodeRows hrow', h.op_unique h']

end Sys2Proof
end

section
/-! PROOFS. A word written to CMD (R86): the words of no row, the two checks that the command makes itself, and the
faults that a well-formed command can still record. -/

namespace Sys2Proof.Machine

open Sys2Proof.Claims

/-! ## The words of no row -/

theorem runCommand_faulted {s : State} (hf : s.blk.faulted = true) (c : Word) : runCommand c s = .next s := by
  simp [runCommand, hf]

theorem runCommand_no_row {c : Word} {s : State} (hf : s.blk.faulted = false) (h : ∀ o, ¬ InRow o c) :
    runCommand c s = .next (faultState s 0x00000101 c 0) := by
  obtain ⟨e, he⟩ := decode_error_of_no_row h
  simp only [runCommand, hf, he]
  rfl

/-- A word with the OP of a row that is none of its words is a word of no row. -/
theorem runCommand_not_inRow {o : Op} {c : Word} {s : State} (hf : s.blk.faulted = false) (hop : opField c = opCode o)
    (h : ¬ InRow o c) : runCommand c s = .next (faultState s 0x00000101 c 0) :=
  runCommand_no_row hf fun _ hrow => h (opCode_injective (hop.symm.trans hrow.op) ▸ hrow)

theorem runCommand_inRow {o : Op} {c : Word} {s : State} (hf : s.blk.faulted = false) (h : InRow o c) :
    runCommand c s = exec (instrOf o (varField c) (implField c)) s := runCommand_decoded hf h.decode_eq

/-! ## The two checks of the command -/

theorem exists_variantCode_eq {var : BitVec 3} (h : var ≠ 7) : ∃ v, variantCode v = var := by
  cases hv : variantOfCode? var with
  | none => exact absurd (variantOfCode_none.1 hv) h
  | some v => exact ⟨v, variantCode_of_some hv⟩

theorem withImpl_reserved {impl : BitVec 4} (h : impl ≠ 0) (c : Word) (s : State) (k : Answer) :
    withImpl c impl s k = .next (s.raiseFault c .reservedImpl 0) := by
  rcases withImpl_eq c impl s k with ⟨-, heq⟩ | ⟨hgeneric, -⟩
  · exact heq
  · exact absurd hgeneric h

/-- R86: a command that uses VAR checks it first. -/
theorem exec_reservedVariant {o : Op} (hused : usesVar o = true) (impl : BitVec 4) (s : State) :
    exec (instrOf o 7 impl) s = .next (s.raiseFault (encode (instrOf o 7 impl)) .reservedVariant 0) := by
  cases o <;> cases hused <;> rfl

/-- R86: a command that uses IMPL checks it after VAR. -/
theorem exec_reservedImpl {o : Op} {var : BitVec 3} {impl : BitVec 4} (hused : usesImpl o = true)
    (hvar : usesVar o = true → var ≠ 7) (himpl : impl ≠ 0) (s : State) :
    exec (instrOf o var impl) s = .next (s.raiseFault (encode (instrOf o var impl)) .reservedImpl 0) := by
  cases o with
  | AVAIL => exact withImpl_reserved himpl _ _ _
  | ENGNEW | ENGREF =>
    obtain ⟨v, rfl⟩ := exists_variantCode_eq (hvar rfl)
    exact (withVariant_code _ v s _).trans (withImpl_reserved himpl _ _ _)
  | QBLK | QSTL | QDGL | QPDL | LDIV | FAST | FASTRT | COMPRESS => cases hused

/-! ## The commands that pass both -/

theorem wfVar_iff {var : BitVec 3} : wfVar var = true ↔ var ≠ 7 := bne_iff_ne

theorem wfImpl_iff {impl : BitVec 4} : wfImpl impl = true ↔ impl = implGeneric := by simp [wfImpl, implSet]

theorem instrOf_wf {o : Op} {var : BitVec 3} {impl : BitVec 4} (hvar : usesVar o = true → var ≠ 7)
    (himpl : usesImpl o = true → impl = 0) : (instrOf o var impl).wf = true := by
  cases o with
  | QBLK | QSTL | QDGL | QPDL | LDIV => exact wfVar_iff.2 (hvar rfl)
  | AVAIL => exact wfImpl_iff.2 (himpl rfl)
  | ENGNEW | ENGREF => exact Bool.and_eq_true_iff.2 ⟨wfVar_iff.2 (hvar rfl), wfImpl_iff.2 (himpl rfl)⟩
  | FAST | FASTRT | COMPRESS => rfl

/-- The faults that no check of R86 raises. -/
def execFaults : List FaultCode := [.engineUnbound, .unavailableImpl, .busError, .overlap]

theorem compressCheck_raise_mem {s : State} {f : FaultCode} {x : Addr} (h : compressCheck s = .raise f x) :
    f ∈ execFaults := by
  unfold compressCheck at h
  (repeat' split at h) <;> simp_all [execFaults]

/-- A well-formed command leaves STATUS alone or records a fault that is none of decoding. -/
theorem exec_status_of_wf {i : Instr} {s t : State} (hwf : i.wf = true) (h : exec i s = .next t) :
    t.blk.status = s.blk.status ∨ ∃ f ∈ execFaults, t.blk.status = statusWord f := by
  cases i with
  | qblk var | qstl var | qdgl var | qpdl var =>
    obtain ⟨v, rfl⟩ := exists_variantCode_eq (wfVar_iff.1 hwf)
    simp only [exec, execQblk, execQstl, execQdgl, execQpdl, query, withVariant_code] at h
    cases h
    exact .inl rfl
  | fast | fastrt =>
    cases h
    exact .inl rfl
  | avail impl =>
    obtain rfl := wfImpl_iff.1 hwf
    cases h
    exact .inl rfl
  | engnew var impl | engref var impl =>
    obtain ⟨hvar, himpl⟩ := Bool.and_eq_true_iff.1 hwf
    obtain ⟨v, rfl⟩ := exists_variantCode_eq (wfVar_iff.1 hvar)
    obtain rfl := wfImpl_iff.1 himpl
    simp only [exec, execEngnew, execEngref, withVariant_code, withImpl_generic] at h
    cases h
    exact .inl rfl
  | ldiv var =>
    obtain ⟨v, rfl⟩ := exists_variantCode_eq (wfVar_iff.1 hwf)
    simp only [exec, execLdiv, withVariant_code, loadIv] at h
    split at h <;> cases h
    · exact .inl rfl
    · exact .inr ⟨.busError, by decide, rfl⟩
  | compress =>
    simp only [exec, execCompress] at h
    split at h <;> cases h
    · next f _ hcheck => exact .inr ⟨f, compressCheck_raise_mem hcheck, rfl⟩
    · exact .inl rfl

theorem fcode_of_execFault {b : Block} {f : FaultCode} (hf : f ∈ execFaults) (hb : b.status = statusWord f) :
    b.fcode ∉ ([0x01, 0x02, 0x03] : List (BitVec 8)) := by
  rw [Block.fcode, hb]
  clear hb
  revert f
  decide

/-- R86: no decode fault after decoding. -/
theorem exec_fcode_of_wf {i : Instr} {s t : State} (hwf : i.wf = true) (hs : s.blk.faulted = false)
    (h : exec i s = .next t) (ht : t.blk.faulted = true) : t.blk.fcode ∉ ([0x01, 0x02, 0x03] : List (BitVec 8)) := by
  rcases exec_status_of_wf hwf h with hkept | ⟨f, hf, hrecorded⟩
  · rw [Block.faulted, hkept, ← Block.faulted, hs] at ht
    cases ht
  · exact fcode_of_execFault hf hrecorded

/-- Settles O4: a word that fails one of the first four checks is in no row, and a word of a row runs the command that
makes the last two. -/
theorem commandWordChecksInOrder : Obligations.CommandWordChecksInOrder := by
  unfold Obligations.CommandWordChecksInOrder
  refine ⟨fun c s hf => runCommand_faulted hf c, fun c s hf =>
    ⟨fun hreserved => runCommand_no_row hf fun o hrow => opCode_not_reserved o (hrow.op ▸ hreserved), fun o hop =>
      ⟨fun h => runCommand_not_inRow hf hop fun hrow => h.elim (· hrow.high) (· hrow.bit11),
        fun hunused h => runCommand_not_inRow hf hop fun hrow => h (hrow.var hunused),
        fun hunused h => runCommand_not_inRow hf hop fun hrow => h (hrow.impl hunused),
        fun hhigh h11 hvar himpl => ?_⟩⟩⟩
  have hrow : InRow o c := ⟨hop, hhigh, h11, hvar, himpl⟩
  have hrun := runCommand_inRow hf hrow
  have hword := hrow.encode_eq
  refine ⟨fun hused hseven => ?_, fun hseven hused hne => ?_, fun hseven hzero => ⟨fun row hmem => ?_, ?_⟩⟩
  · rw [show varField c = 7 from hseven] at hrun hword
    rw [hrun, exec_reservedVariant hused, hword]
    rfl
  · rw [hrun, exec_reservedImpl (var := varField c) (impl := implField c) hused hseven hne, hword]
    rfl
  · rw [row_selects_iff hmem]
    exact ⟨fun h => h.op_unique hrow, fun h => h ▸ hrow⟩
  · have hwf : (instrOf o (varField c) (implField c)).wf = true := instrOf_wf hseven hzero
    exact ⟨_, hwf, hword, opOf_instrOf _ _ _, hrun, fun t ht hfaulted => exec_fcode_of_wf hwf hf ht hfaulted⟩

end Sys2Proof.Machine
end

section
/-! PROOFS. The variant queries (spec/40_variant_queries.md): a row of the opcode table as the statements on single
commands take it, what a query answers, and the laws of the parameter table. -/

namespace Sys2Proof.Machine

open Sys2Proof.Claims

/-! ## The row of one command (R85, R86) -/

/-- The words with the OP of `o` are those of its row, which run it, and words of no row. -/
theorem rowOf_opMask (o : Op) : rowOf o (opCode o) (opMatch o) (opMask o) := by
  intro c s hf hop
  rw [Ne, and_opMask_eq_opMatch_iff]
  exact ⟨runCommand_not_inRow hf hop, fun hrow =>
    ⟨_, hrow.encode_eq, opOf_instrOf _ _ _, runCommand_inRow hf hrow⟩⟩

/-! ## What a query answers (R101 to R105) -/

theorem query_variantCode (c : Word) (v : Variant) (len : Variant → Nat) (s : State) :
    query c (variantCode v) len s = .next (s.setResult (BitVec.ofNat 32 (len v))) := withVariant_code c v s _

/-- A row of R101 with the lengths as the queries give them: VAR, then block, state, digest and pad length. -/
def lengthRow (v : Variant) : BitVec 3 × Word × Word × Word × Word :=
  (variantCode v, BitVec.ofNat 32 (blockLen v), BitVec.ofNat 32 (stateLen v), BitVec.ofNat 32 (digestLen v),
    BitVec.ofNat 32 (padLen v))

/-- R101: the table written out is that of the model's lengths. -/
theorem lengthRows_eq :
    ([.sha1, .sha224, .sha256, .sha384, .sha512, .sha512t224, .sha512t256] : List Variant).map lengthRow
      = [(0, 64, 20, 20, 8), (1, 64, 32, 28, 8), (2, 64, 32, 32, 8), (3, 128, 64, 48, 16), (4, 128, 64, 64, 16),
          (5, 128, 64, 28, 16), (6, 128, 64, 32, 16)] := rfl

/-- Settles O16: every row of the table is a variant's, so each query passes the check of VAR and writes its length;
the code 7 fails it. -/
theorem queriesWriteTheTableLengths : Obligations.QueriesWriteTheTableLengths := by
  unfold Obligations.QueriesWriteTheTableLengths
  refine ⟨rowOf_opMask .QBLK, rowOf_opMask .QSTL, rowOf_opMask .QDGL, rowOf_opMask .QPDL, fun s row hrow => ?_,
    fun s => ⟨exec_reservedVariant (o := .QBLK) rfl 0 s, exec_reservedVariant (o := .QSTL) rfl 0 s,
      exec_reservedVariant (o := .QDGL) rfl 0 s, exec_reservedVariant (o := .QPDL) rfl 0 s⟩⟩
  rw [← lengthRows_eq, List.mem_map] at hrow
  obtain ⟨v, -, rfl⟩ := hrow
  exact ⟨query_variantCode _ v _ s, query_variantCode _ v _ s, query_variantCode _ v _ s, query_variantCode _ v _ s⟩

/-! ## The laws of the table (R106) -/

theorem digestLen_eq_stateLen_iff (v : Variant) :
    digestLen v = stateLen v ↔ v = .sha1 ∨ v = .sha256 ∨ v = .sha512 := by
  cases v <;> decide

theorem digestLen_lt_stateLen_iff (v : Variant) :
    digestLen v < stateLen v ↔ v = .sha224 ∨ v = .sha384 ∨ v = .sha512t224 ∨ v = .sha512t256 := by
  cases v <;> decide

theorem digestLen_le_stateLen (v : Variant) : digestLen v ≤ stateLen v := by cases v <;> decide

/-- The word width, 32 bits for the codes 0 to 2 and 64 for the others, fixes both lengths. -/
theorem blockLen_padLen_cases (v : Variant) :
    ((variantCode v).toNat ≤ 2 ∧ blockLen v = 64 ∧ padLen v = 8)
      ∨ (3 ≤ (variantCode v).toNat ∧ blockLen v = 128 ∧ padLen v = 16) := by
  cases v <;> decide

/-- Settles O17: the laws on the digest variant by variant, those on blocks and padding from the word width. -/
theorem variantTableLaws : Obligations.VariantTableLaws := by
  unfold Obligations.VariantTableLaws
  intro v
  refine ⟨digestLen_le_stateLen v, digestLen_eq_stateLen_iff v, digestLen_lt_stateLen_iff v, ?_⟩
  rcases blockLen_padLen_cases v with ⟨hcode, hblock, hpad⟩ | ⟨hcode, hblock, hpad⟩
  · exact ⟨.inl hblock, .inl hpad, fun h => by omega, fun _ => ⟨hblock, hpad⟩⟩
  · exact ⟨.inr hblock, .inr hpad, fun _ => ⟨hblock, hpad⟩, fun h => by omega⟩

end Sys2Proof.Machine
end

section
/-! PROOFS. LDIV and the table of initial states (spec/41_initial_state.md): what the command writes (R120), the words of
the table (R121, R122), and the derivation of its constants (R124). -/

namespace Sys2Proof.Machine

/-! ## LDIV (R120) -/

theorem exec_ldiv_variantCode (v : Variant) (s : State) :
    exec (.ldiv (variantCode v)) s = loadIv (encode (.ldiv (variantCode v))) s v := withVariant_code _ v s _

theorem loadIv_admitted {s : State} {v : Variant} (h : s.admits s.blk.stateAddr (stateLen v) = true) (c : Word) :
    loadIv c s v = .next (s.memWrite s.blk.stateAddr.toNat (ivBytes s.stateOrder v)) := if_pos h

theorem loadIv_not_admitted {s : State} {v : Variant} (h : s.admits s.blk.stateAddr (stateLen v) = false) (c : Word) :
    loadIv c s v = .next (s.raiseFault c .busError s.blk.stateAddr) := if_neg (by simp [h])

/-- The codes 0 to 2 are those of the variants with 32-bit words (R82, R160). -/
theorem familyWordBits_eq_of_code (v : Variant) :
    familyWordBits (familyOf v) = if (variantCode v).toNat ≤ 2 then 32 else 64 := by cases v <;> rfl

/-- The initial state reads back from an admitted region of a canonical memory. -/
theorem readBytes_writeBytes_ivBytes {s : State} {v : Variant} (hwf : s.mem.wf = true)
    (hadmit : s.admits s.blk.stateAddr (stateLen v) = true) (o : ByteOrder) :
    readBytes (writeBytes s.mem s.blk.stateAddr.toNat (ivBytes o v)) s.blk.stateAddr.toNat (stateLen v)
      = ivBytes o v := by
  have hread := readBytes_writeBytes (ivBytes o v) ((ivBytes_length o v).symm ▸ admit_le hadmit) hwf
  rwa [ivBytes_length] at hread

/-- Settles O18: LDIV is one write of `state_len(v)` bytes or one of its two faults, so the region reads back what was
written and every other byte reads as before. -/
theorem ldivWritesTheInitialState : Obligations.LdivWritesTheInitialState := by
  unfold Obligations.LdivWritesTheInitialState
  refine ⟨rowOf_opMask .LDIV, fun v s hwf hadmit => ?_, fun v s hnot => ?_,
    fun s => exec_reservedVariant (o := .LDIV) rfl 0 s⟩
  · rw [exec_ldiv_variantCode, loadIv_admitted hadmit, ← familyWordBits_eq_of_code]
    exact ⟨_, rfl, rfl, readBytes_writeBytes_ivBytes hwf hadmit s.stateOrder,
      fun a ha => readByte_writeBytes_outside _ ((ivBytes_length s.stateOrder v).symm ▸ ha)⟩
  · rw [exec_ldiv_variantCode, loadIv_not_admitted hnot]
    rfl

/-! ## The words of the table (R121, R122) -/

/-- The seven variants, in the order of their codes. -/
def allVariants : List Variant := [.sha1, .sha224, .sha256, .sha384, .sha512, .sha512t224, .sha512t256]

theorem mem_allVariants (v : Variant) : v ∈ allVariants := by cases v <;> decide

theorem ivWords_nodup : (allVariants.map ivWords).Nodup := by decide

theorem ivWords_injective : Function.Injective ivWords := fun v v' h =>
  List.inj_on_of_nodup_map ivWords_nodup (mem_allVariants v) (mem_allVariants v') h

theorem familyWordBits_eq (v : Variant) :
    familyWordBits (familyOf v) = if v = .sha1 ∨ v = .sha224 ∨ v = .sha256 then 32 else 64 := by cases v <;> rfl

theorem familyWordBytes_eq (v : Variant) :
    familyWordBits (familyOf v) / 8 = if v = .sha1 ∨ v = .sha224 ∨ v = .sha256 then 4 else 8 := by cases v <;> rfl

/-- The words fill the state region (R121). -/
theorem ivWords_length_mul (v : Variant) : (ivWords v).length * (familyWordBits (familyOf v) / 8) = stateLen v := by
  simpa [ivBytes] using ivBytes_length .LE v

theorem ivWords_lt (v : Variant) : ∀ x ∈ ivWords v, x < 2 ^ familyWordBits (familyOf v) := by cases v <;> decide

/-- Settles O19: the seven vectors are a list without duplicates, and the width of a variant's words is its family's. -/
theorem sevenDistinctInitialVectors : Obligations.SevenDistinctInitialVectors := by
  unfold Obligations.SevenDistinctInitialVectors
  refine ⟨fun v v' h => ivWords_injective h, fun v => ?_⟩
  rw [← familyWordBits_eq, ← familyWordBytes_eq]
  exact ⟨ivWords_length_mul v, ivWords_lt v⟩

/-! ## The derivation of the constants (R124) -/

/-- The first 64 bits of the fractional part of the square root of `p`. -/
def sqrtFraction (p : Nat) : Nat := Nat.sqrt (p * 2 ^ 128) % 2 ^ 64

/-- With the integer part `n` before it, the fraction is the square root of `p` cut to 64 binary places. -/
theorem sqrtFraction_bounds {p : Nat} (hp : p < 64) :
    ∃ n < 8, (n * 2 ^ 64 + sqrtFraction p) ^ 2 ≤ p * 2 ^ 128
      ∧ p * 2 ^ 128 < (n * 2 ^ 64 + sqrtFraction p + 1) ^ 2 := by
  have hroot : Nat.sqrt (p * 2 ^ 128) / 2 ^ 64 * 2 ^ 64 + sqrtFraction p = Nat.sqrt (p * 2 ^ 128) :=
    Nat.div_add_mod' _ _
  refine ⟨Nat.sqrt (p * 2 ^ 128) / 2 ^ 64, ?_, ?_⟩
  · rw [Nat.div_lt_iff_lt_mul (by decide), Nat.sqrt_lt']
    omega
  · rw [hroot]
    exact ⟨Nat.sqrt_le' _, Nat.lt_succ_sqrt' _⟩

/-- The first 16 primes (`firstPrimes_eq`). -/
def firstPrimes : List Nat := (List.range 54).filter Nat.Prime

theorem firstPrimes_eq : firstPrimes = [2, 3, 5, 7, 11, 13, 17, 19, 23, 29, 31, 37, 41, 43, 47, 53] := by decide

theorem firstPrimes_lt {p : Nat} (h : p ∈ firstPrimes) : p < 64 :=
  (List.mem_range.1 (List.mem_of_mem_filter h)).trans (by decide)

theorem ivWords_eq_sqrtFractions : ivWords .sha512 ++ ivWords .sha384 = firstPrimes.map sqrtFraction := by
  norm_num [ivWords, firstPrimes_eq, sqrtFraction]

theorem ivWords_sqrt_bounds {e : Nat × Nat} (h : e ∈ List.zip firstPrimes (ivWords .sha512 ++ ivWords .sha384)) :
    ∃ n < 8, (n * 2 ^ 64 + e.2) ^ 2 ≤ e.1 * 2 ^ 128 ∧ e.1 * 2 ^ 128 < (n * 2 ^ 64 + e.2 + 1) ^ 2 := by
  rw [ivWords_eq_sqrtFractions, ← List.map_prod_left_eq_zip, List.mem_map] at h
  obtain ⟨p, hp, rfl⟩ := h
  exact sqrtFraction_bounds (firstPrimes_lt hp)

theorem ivWords_sha256 : ivWords .sha256 = (ivWords .sha512).map (· / 2 ^ 32) := by decide

theorem ivWords_sha224 : ivWords .sha224 = (ivWords .sha384).map (· % 2 ^ 32) := by decide

/-- The vector that R124 derives from a variant's name: the SHA-512 state of the one-block text, started from SHA-512's
vector with each byte's exclusive-or with A5. -/
def derivedIv (name : List Byte) : List (BitVec 64) :=
  sha512Compress ((ivWords .sha512).map fun x => BitVec.ofNat 64 x ^^^ 0xA5A5A5A5A5A5A5A5)
    (wordsOf .BE 64 16 (pad .sha512 name))

/-- The name's bytes are "SHA-512/224". -/
theorem ivWords_sha512t224 : (ivWords .sha512t224).map (BitVec.ofNat 64)
    = derivedIv [0x53, 0x48, 0x41, 0x2D, 0x35, 0x31, 0x32, 0x2F, 0x32, 0x32, 0x34] := by decide +kernel

/-- The name's bytes are "SHA-512/256". -/
theorem ivWords_sha512t256 : (ivWords .sha512t256).map (BitVec.ofNat 64)
    = derivedIv [0x53, 0x48, 0x41, 0x2D, 0x35, 0x31, 0x32, 0x2F, 0x32, 0x35, 0x36] := by decide +kernel

/-- Settles O20: the 64-bit words are the square roots of the first 16 primes by `Nat.sqrt`, the 32-bit ones their halves,
and the two truncated variants' are the routine's result on their names. -/
theorem initialVectorsFollowTheirDerivation : Obligations.InitialVectorsFollowTheirDerivation := by
  unfold Obligations.InitialVectorsFollowTheirDerivation
  rw [← firstPrimes_eq]
  exact ⟨rfl, rfl, rfl, fun _ he => ivWords_sqrt_bounds he, ivWords_sha256, ivWords_sha224,
    List.forall_mem_cons.2 ⟨ivWords_sha512t224, List.forall_mem_singleton.2 ivWords_sha512t256⟩⟩

end Sys2Proof.Machine
end

section
/-! PROOFS. The implementation selector (spec/42_impl_selector.md): what FAST, FASTRT and AVAIL answer (R141 to R143), and
that the implementation FASTRT names is available (R144, R145). -/

namespace Sys2Proof.Machine

/-! ## What a selector command answers -/

theorem exec_fast (s : State) : exec .fast s = .next (s.setResult (implGeneric.setWidth 32)) := rfl

theorem exec_fastrt (s : State) : exec .fastrt s = .next (s.setResult (implGeneric.setWidth 32)) := rfl

theorem mem_implSet {i : BitVec 4} : i ∈ implSet ↔ i = implGeneric := List.mem_singleton

/-- AVAIL passes the check of IMPL on an implemented code, and every implemented code is available (R143, R144). -/
theorem exec_avail_of_mem {i : BitVec 4} (h : i ∈ implSet) (s : State) : exec (.avail i) s = .next (s.setResult 1) := by
  obtain rfl := mem_implSet.1 h
  exact withImpl_generic (encode (.avail implGeneric)) s _

/-- Settles O21: the rows are the table's, the three answers are those of the code of Generic, and AVAIL of every other
code fails the check of IMPL. -/
theorem selectorQueriesAnswerGeneric : Obligations.SelectorQueriesAnswerGeneric := by
  unfold Obligations.SelectorQueriesAnswerGeneric
  exact ⟨rowOf_opMask .FAST, rowOf_opMask .FASTRT, rowOf_opMask .AVAIL, fun s =>
    ⟨exec_fast s, exec_fastrt s, exec_avail_of_mem (mem_implSet.2 rfl) s,
      fun i hi => exec_reservedImpl (o := .AVAIL) (var := 0) rfl (fun hvar => nomatch hvar) hi s⟩⟩

/-- Settles O22: FASTRT names Generic, which is implemented, so AVAIL of it answers 1 in the state FASTRT leaves. -/
theorem fastrtResultIsAvailable : Obligations.FastrtResultIsAvailable := by
  unfold Obligations.FastrtResultIsAvailable
  intro s
  have hgeneric : implGeneric ∈ implSet := mem_implSet.2 rfl
  exact ⟨_, _, implGeneric, exec_fastrt s, rfl, hgeneric, exec_avail_of_mem hgeneric _, rfl⟩

end Sys2Proof.Machine
end

section
/-! PROOFS. Binding and compression (spec/43_engine_dispatch.md): what ENGNEW and ENGREF bind (R160, R162, R163), the
checks of COMPRESS (R164), the bytes that a COMPRESS with every check passed leaves (R161), and that they depend on
nothing else (R165). -/

namespace Sys2Proof.Machine

open Sys2Proof.Claims

/-! ## Binding (R160, R162, R163) -/

theorem exec_engnew_variantCode (v : Variant) (s : State) :
    exec (.engnew (variantCode v) implGeneric) s = .next (s.setEng (engWord implGeneric (familyOf v))) :=
  (withVariant_code _ v s _).trans (withImpl_generic _ s _)

theorem exec_engref_variantCode (v : Variant) (s : State) :
    exec (.engref (variantCode v) implGeneric) s
      = .next ((s.setEng (engWord implGeneric (familyOf v))).setResult (singletonId implGeneric (familyOf v))) :=
  (withVariant_code _ v s _).trans (withImpl_generic _ s _)

/-- R160: the table written out is that of the model's families. -/
theorem bindingRows_eq :
    allVariants.map (fun v => (variantCode v, engWord implGeneric (familyOf v)))
      = [(0, 0x80000000), (1, 0x80000001), (2, 0x80000001), (3, 0x80000002), (4, 0x80000002), (5, 0x80000002),
          (6, 0x80000002)] := rfl

/-- R160, R163: the table with the singleton ids. -/
theorem singletonRows_eq :
    allVariants.map (fun v => (variantCode v, engWord implGeneric (familyOf v), singletonId implGeneric (familyOf v)))
      = [(0, 0x80000000, 0), (1, 0x80000001, 1), (2, 0x80000001, 1), (3, 0x80000002, 2), (4, 0x80000002, 2),
          (5, 0x80000002, 2), (6, 0x80000002, 2)] := rfl

/-- Settles O23: every row of the table is a variant's, so ENGNEW passes both checks and writes its binding; the code 7
fails the first check and every other implementation the second. -/
theorem engnewBindsTheFamily : Obligations.EngnewBindsTheFamily := by
  unfold Obligations.EngnewBindsTheFamily
  refine ⟨rowOf_opMask .ENGNEW, fun s row hrow => ?_, fun s i => exec_reservedVariant (o := .ENGNEW) rfl i s,
    fun s v i hv hi => exec_reservedImpl (o := .ENGNEW) rfl (fun _ => hv) hi s⟩
  rw [← bindingRows_eq, List.mem_map] at hrow
  obtain ⟨v, -, rfl⟩ := hrow
  exact exec_engnew_variantCode v s

/-- Settles O24: as for ENGNEW, with the singleton id of the binding in RESULT. -/
theorem engrefBindsAndNamesTheSingleton : Obligations.EngrefBindsAndNamesTheSingleton := by
  unfold Obligations.EngrefBindsAndNamesTheSingleton
  refine ⟨rowOf_opMask .ENGREF, fun s row hrow => ?_, fun s i => exec_reservedVariant (o := .ENGREF) rfl i s,
    fun s v i hv hi => exec_reservedImpl (o := .ENGREF) rfl (fun _ => hv) hi s⟩
  rw [← singletonRows_eq, List.mem_map] at hrow
  obtain ⟨v, -, rfl⟩ := hrow
  exact exec_engref_variantCode v s

/-! ## The checks of COMPRESS (R164) -/

theorem compressCheck_unbound {s : State} (hb : s.blk.bound = false) : compressCheck s = .raise .engineUnbound 0 := by
  simp [compressCheck, hb]

theorem compressCheck_unavailable {s : State} (hb : s.blk.bound = true) (ha : avail s.blk.engImpl = false) :
    compressCheck s = .raise .unavailableImpl 0 := by
  simp [compressCheck, hb, ha]

/-- Bound to an available implementation of a family, COMPRESS goes on to the checks of the two regions. -/
theorem compressCheck_bound {s : State} {f : Family} (hb : s.blk.bound = true) (ha : avail s.blk.engImpl = true)
    (hf : s.blk.engFamily = familyCode f) :
    compressCheck s =
      if !s.admits s.blk.stateAddr (familyStateLen f) then .raise .busError s.blk.stateAddr
      else if !s.admits s.blk.blockAddr (familyBlockLen f) then .raise .busError s.blk.blockAddr
      else if spansOverlap (s.stateSpan f) (s.blockSpan f) then .raise .overlap 0
      else .run f := by
  simp [compressCheck, hb, ha, hf]

theorem exec_compress_raise {s : State} {code : FaultCode} {x : Addr} (h : compressCheck s = .raise code x) :
    exec .compress s = .next (faultState s (statusWord code) 0x0000000B x) := by
  simp only [exec, execCompress, h]
  rfl

/-- Settles O14: each check fails with its own fault once those before it have passed. -/
theorem compressChecksInOrder : Obligations.CompressChecksInOrder := by
  unfold Obligations.CompressChecksInOrder
  refine fun s => ⟨fun hb => exec_compress_raise (compressCheck_unbound hb),
    fun hb ha => exec_compress_raise (compressCheck_unavailable hb ha), fun hb ha f hf => ?_⟩
  have hcheck := compressCheck_bound hb ha hf
  refine ⟨fun hstate => exec_compress_raise (code := .busError) ?_,
    fun hstate hblock => exec_compress_raise (code := .busError) ?_,
    fun hstate hblock hlow hhigh => exec_compress_raise (code := .overlap) ?_⟩
  · simp [hcheck, hstate]
  · simp [hcheck, hstate, hblock]
  · have hoverlap : spansOverlap (s.stateSpan f) (s.blockSpan f) = true := (spansOverlap_iff _ _).2 ⟨hlow, hhigh⟩
    simp [hcheck, hstate, hblock, hoverlap]

/-! ## What a running COMPRESS writes (R161, R164) -/

theorem exec_compress_run {s : State} {f : Family} (h : compressCheck s = .run f) :
    exec .compress s = .next (s.memWrite s.blk.stateAddr.toNat (compressBytes s f)) := by
  simp only [exec, execCompress, h]

/-- The routine's bytes read back from the state region, which is admitted. -/
theorem readBytes_writeBytes_compressBytes {s : State} {f : Family} (hwf : s.mem.wf = true)
    (hrun : compressCheck s = .run f) :
    readBytes (writeBytes s.mem s.blk.stateAddr.toNat (compressBytes s f)) s.blk.stateAddr.toNat (familyStateLen f)
      = compressBytes s f := by
  obtain ⟨-, -, -, hadmit, -, -⟩ := compressCheck_run hrun
  have hread := readBytes_writeBytes (compressBytes s f) ((compressBytes_length s f).symm ▸ admit_le hadmit) hwf
  rwa [compressBytes_length] at hread

/-- Settles O25: with every check passed COMPRESS is one write of the routine's bytes to the state region, so that region
reads back what was written and every other byte reads as before. -/
theorem compressRunsTheBoundRoutine : Obligations.CompressRunsTheBoundRoutine := by
  unfold Obligations.CompressRunsTheBoundRoutine
  intro s f hwf hb ha hf hstate hblock hdisjoint
  have hfamily : familyOfCode? s.blk.engFamily = some f := hf ▸ familyOfCode_familyCode f
  have hrun : compressCheck s = .run f := (compressCheck_run_iff s f).2
    ⟨hb, ha, hfamily, hstate, hblock, (spansOverlap_false_iff _ _).2 hdisjoint⟩
  refine ⟨_, exec_compress_run hrun, rfl, (readBytes_writeBytes_compressBytes hwf hrun).trans ?_,
    fun a ha => readByte_writeBytes_outside _ ((compressBytes_length s f).symm ▸ ha)⟩
  cases f <;> rfl

/-! ## Purity (R165) -/

/-- A COMPRESS that leaves the instance unfaulted has passed every check. -/
theorem compressCheck_run_of_unfaulted {s t : State} {f : Family} (hf : s.blk.engFamily = familyCode f)
    (h : exec .compress s = .next t) (ht : t.blk.faulted = false) : compressCheck s = .run f := by
  cases hcheck : compressCheck s with
  | raise code x =>
    rw [exec_compress_raise hcheck] at h
    cases h
    exact absurd ht (by simp [faultState])
  | stuck =>
    simp only [exec, execCompress, hcheck] at h
    cases h
  | run g =>
    obtain ⟨-, -, hg, -, -, -⟩ := compressCheck_run hcheck
    rw [hf, familyOfCode_familyCode, Option.some.injEq] at hg
    rw [hg]

/-- What the state region of a COMPRESS that completes reads afterwards, as a function of R165's arguments. -/
theorem readBytes_of_compress {s t : State} {f : Family} (hwf : s.mem.wf = true) (hf : s.blk.engFamily = familyCode f)
    (h : exec .compress s = .next t) (ht : t.blk.faulted = false) :
    readBytes t.mem s.blk.stateAddr.toNat (familyStateLen f)
      = routineBytes s.stateOrder f (readBytes s.mem s.blk.stateAddr.toNat (familyStateLen f))
          (readBytes s.mem s.blk.blockAddr.toNat (familyBlockLen f)) := by
  have hrun : compressCheck s = .run f := compressCheck_run_of_unfaulted hf h ht
  rw [exec_compress_run hrun] at h
  cases h
  exact readBytes_writeBytes_compressBytes hwf hrun

/-- Settles O29: both regions read the routine's bytes, and its arguments are the ones that agree. -/
theorem compressIsPure : Obligations.CompressIsPure := by
  unfold Obligations.CompressIsPure
  intro s s' t t' f hwf hwf' horder hf hf' hstate hblock _ _ h h' ht ht'
  rw [readBytes_of_compress hwf hf h ht, readBytes_of_compress hwf' hf' h' ht', horder, hstate, hblock]

end Sys2Proof.Machine
end

section
/-! PROOFS. The shape that the three message schedules share (R183, R203, R223): the block's words, and then words that
are each computed from those before it. -/

namespace Sys2Proof.Machine

/-- Put `n` more words in front of a list, the latest first, each given by `next` on the words that precede it. -/
def extendBy {α : Type} (next : List α → α) : Nat → List α → List α
  | 0, ws => ws
  | n + 1, ws => extendBy next n (next ws :: ws)

section
variable {α : Type} (next : List α → α)

/-- The last word put in front is computed from all the others. -/
theorem extendBy_succ (n : Nat) (ws : List α) :
    extendBy next (n + 1) ws = next (extendBy next n ws) :: extendBy next n ws := by
  induction n generalizing ws with
  | zero => rfl
  | succ n ih => exact ih (next ws :: ws)

@[simp] theorem extendBy_length (n : Nat) (ws : List α) : (extendBy next n ws).length = ws.length + n := by
  induction n with
  | zero => rfl
  | succ n ih => rw [extendBy_succ, List.length_cons, ih, Nat.add_assoc]

/-- A shorter schedule is the beginning of a longer one. -/
theorem take_reverse_extendBy {k n : Nat} (hk : k ≤ n) (ws : List α) :
    (extendBy next n ws).reverse.take (ws.length + k) = (extendBy next k ws).reverse := by
  induction n, hk using Nat.le_induction with
  | base => exact List.take_of_length_le (by simp)
  | succ n hk ih => rw [extendBy_succ, List.reverse_cons, List.take_append_of_le_length (by simpa using hk), ih]

/-- A word that stands in a shorter schedule stands at the same place in a longer one. -/
theorem getD_reverse_extendBy {k n i : Nat} (hk : k ≤ n) {ws : List α} (hi : i < ws.length + k) (d : α) :
    (extendBy next n ws).reverse.getD i d = (extendBy next k ws).reverse.getD i d := by
  rw [← take_reverse_extendBy next hk, List.getD_eq_getElem?_getD, List.getD_eq_getElem?_getD,
    List.getElem?_take_of_lt hi]

/-- The words of the block begin the schedule. -/
theorem schedule_block_word {n i : Nat} {m : List α} (hi : i < m.length) (d : α) :
    (extendBy next n m.reverse).reverse.getD i d = m.getD i d := by
  rw [getD_reverse_extendBy next n.zero_le (by simpa using hi), extendBy, List.reverse_reverse]

/-- Word `t` after the block is `next` of the schedule up to it. -/
theorem schedule_next_word {n t : Nat} {ws : List α} (ht : ws.length ≤ t) (hn : t < ws.length + n) (d : α) :
    (extendBy next n ws).reverse.getD t d = next (extendBy next (t - ws.length) ws) := by
  have hlen : (extendBy next (t - ws.length) ws).reverse.length = t := by simp; omega
  rw [getD_reverse_extendBy next (k := t - ws.length + 1) (by omega) (by omega), extendBy_succ, List.reverse_cons,
    List.getD_append_right _ _ _ _ hlen.le, hlen, Nat.sub_self, List.getD_cons_zero]

/-- The `j`-th latest of the words before word `t`, by its place in the schedule. -/
theorem schedule_word_back {n t j : Nat} {ws : List α} (ht : ws.length ≤ t) (hn : t < ws.length + n) (hj : j < t)
    (d : α) :
    (extendBy next (t - ws.length) ws).getD j d = (extendBy next n ws).reverse.getD (t - (j + 1)) d := by
  have hlen : (extendBy next (t - ws.length) ws).length = t := by simp; omega
  rw [getD_reverse_extendBy next (k := t - ws.length) (by omega) (by omega), List.getD_reverse _ (by omega), hlen]
  congr 1
  omega

end

end Sys2Proof.Machine
end

section
/-! PROOFS. The SHA-1 compression routine (spec/44_compress_sha1.md): its message schedule and its rounds. -/

namespace Sys2Proof.Machine

/-! ## The message schedule (R183) -/

theorem sha1Extend_eq_extendBy (n : Nat) (ws : List (BitVec 32)) : sha1Extend n ws = extendBy sha1NextW n ws := by
  induction n generalizing ws with
  | zero => rfl
  | succ n ih => exact ih (sha1NextW ws :: ws)

theorem sha1Schedule_eq_extendBy (m : List (BitVec 32)) :
    sha1Schedule m = (extendBy sha1NextW 64 m.reverse).reverse := by
  rw [sha1Schedule, sha1Extend_eq_extendBy]

@[simp] theorem sha1Schedule_length (m : List (BitVec 32)) : (sha1Schedule m).length = m.length + 64 := by
  simp [sha1Schedule_eq_extendBy]

/-- Settles O30: a word after the block is the rotate of the words that the model reads 2, 7, 13 and 15 places behind the
latest one, which are 3, 8, 14 and 16 back. -/
theorem sha1ScheduleRecurrence : Obligations.Sha1ScheduleRecurrence := by
  unfold Obligations.Sha1ScheduleRecurrence
  intro m hm
  refine ⟨by simp [hm], fun t ht => ?_, fun t ht hlast => ?_⟩
  · rw [sha1Schedule_eq_extendBy, schedule_block_word _ (hm ▸ ht)]
  · have hblock : m.reverse.length ≤ t := by simpa [hm] using ht
    have hend : t < m.reverse.length + 64 := by simpa [hm] using hlast
    have hback (j : Nat) (hj : j < 16) := schedule_word_back sha1NextW hblock hend (hj.trans_le ht) 0
    rw [sha1Schedule_eq_extendBy, schedule_next_word _ hblock hend, sha1NextW, rotl_eq_rotateLeft _ (by decide),
      hback 2 (by decide), hback 7 (by decide), hback 13 (by decide), hback 15 (by decide)]

/-! ## The rounds (R181, R182, R184) -/

/-- R181's table, by the group of 20 rounds. -/
theorem sha1K_eq_getD {t : Nat} (ht : t < 80) :
    sha1K t = ([0x5A827999, 0x6ED9EBA1, 0x8F1BBCDC, 0xCA62C1D6] : List (BitVec 32)).getD (t / 20) 0 := by
  revert t
  decide

/-- R182's functions, with the two ranges of `Parity` taken together. -/
theorem sha1F_eq (t : Nat) (x y z : BitVec 32) :
    sha1F t x y z =
      if t ≤ 19 then (x &&& y) ^^^ (~~~x &&& z)
      else if 40 ≤ t ∧ t ≤ 59 then (x &&& y) ^^^ (x &&& z) ^^^ (y &&& z)
      else x ^^^ y ^^^ z := by
  obtain h | h | h | h : t < 20 ∨ (20 ≤ t ∧ t < 40) ∨ (40 ≤ t ∧ t < 60) ∨ 60 ≤ t := by omega
  · rw [sha1F, if_pos h, if_pos (by omega), ch]
  · rw [sha1F, if_neg (by omega), if_pos h.2, if_neg (by omega), if_neg (by omega), parity]
  · rw [sha1F, if_neg (by omega), if_neg (by omega), if_pos h.2, if_neg (by omega), if_pos (by omega), maj]
  · rw [sha1F, if_neg (by omega), if_neg (by omega), if_neg (by omega), if_neg (by omega), if_neg (by omega), parity]

/-- The rounds as a fold over their numbers. -/
theorem sha1Rounds_eq_foldl (t : Nat) (s : Work5) (ws : List (BitVec 32)) :
    sha1Rounds t s ws = (List.range ws.length).foldl (fun s k => sha1Round s (t + k) (ws.getD k 0)) s := by
  induction ws generalizing t s with
  | nil => rfl
  | cons w ws ih =>
    simp [sha1Rounds, ih, List.range_succ_eq_map, List.foldl_map, Nat.add_assoc, Nat.add_comm 1]

/-- Settles O31: the 80 rounds are a fold over the schedule's words, and each is R184's with the function and the constant
of its number. -/
theorem sha1CompressByRounds : Obligations.Sha1CompressByRounds := by
  unfold Obligations.Sha1CompressByRounds
  intro h m _ hm
  rw [sha1Compress, sha1Rounds_eq_foldl, sha1Schedule_length, hm, List.foldl_ext _ _ _ fun s t ht => ?_]
  · rfl
  · have hround : t < 80 := List.mem_range.1 ht
    rw [Nat.zero_add, sha1Round, sha1F_eq, sha1K_eq_getD hround, rotl_eq_rotateLeft _ (by decide),
      rotl_eq_rotateLeft _ (by decide)]

end Sys2Proof.Machine
end

section
/-! PROOFS. What the SHA-256 and the SHA-512 routine share (R203, R204, R223, R224): the recurrence of the message
schedule for any two small sigma functions, and the pairs of a constant and a word numbered by their place. -/

namespace Sys2Proof.Machine

/-- The word of R203 and R223 that follows the words listed, the latest first, for given small sigma functions. -/
def sha2NextW {w : Nat} (σ0 σ1 : BitVec w → BitVec w) (ws : List (BitVec w)) : BitVec w :=
  σ1 (ws.getD 1 0) + ws.getD 6 0 + σ0 (ws.getD 14 0) + ws.getD 15 0

/-- A word after the block obeys the recurrence: the one read `j` places behind the latest stands `j + 1` back. -/
theorem sha2_schedule_next_word {w n t : Nat} (σ0 σ1 : BitVec w → BitVec w) {m : List (BitVec w)}
    (hm : m.length = 16) (ht : 16 ≤ t) (hn : t < 16 + n) {W : List (BitVec w)}
    (hW : W = (extendBy (sha2NextW σ0 σ1) n m.reverse).reverse) :
    W.getD t 0 = σ1 (W.getD (t - 2) 0) + W.getD (t - 7) 0 + σ0 (W.getD (t - 15) 0) + W.getD (t - 16) 0 := by
  have hblock : m.reverse.length ≤ t := by simpa [hm] using ht
  have hend : t < m.reverse.length + n := by simpa [hm] using hn
  have hback (j : Nat) (hj : j < 16) := schedule_word_back (sha2NextW σ0 σ1) hblock hend (hj.trans_le ht) 0
  rw [hW, schedule_next_word _ hblock hend, sha2NextW, hback 1 (by decide), hback 6 (by decide),
    hback 14 (by decide), hback 15 (by decide)]

/-- The pairs of two lists of one length, by their place. -/
theorem zip_eq_map_range {α β : Type} {n : Nat} {ks : List α} {ws : List β} (hk : ks.length = n) (hw : ws.length = n)
    (d : α) (d' : β) : ks.zip ws = (List.range n).map fun t => (ks.getD t d, ws.getD t d') :=
  List.ext_getElem (by simp [hk, hw]) fun t _ ht => by
    have hlt : t < n := by simpa using ht
    simp [hk, hw, hlt]

end Sys2Proof.Machine
end

section
/-! PROOFS. The SHA-256 compression routine (spec/45_compress_sha256.md): its message schedule and its rounds. -/

namespace Sys2Proof.Machine

/-! ## The functions (R202) -/

theorem bigSigma0W32_eq (x : BitVec 32) :
    bigSigma0W32 x = x.rotateRight 2 ^^^ x.rotateRight 13 ^^^ x.rotateRight 22 := by
  simp [bigSigma0W32, rotr_eq_rotateRight]

theorem bigSigma1W32_eq (x : BitVec 32) :
    bigSigma1W32 x = x.rotateRight 6 ^^^ x.rotateRight 11 ^^^ x.rotateRight 25 := by
  simp [bigSigma1W32, rotr_eq_rotateRight]

theorem smallSigma0W32_eq (x : BitVec 32) : smallSigma0W32 x = x.rotateRight 7 ^^^ x.rotateRight 18 ^^^ x >>> 3 := by
  simp [smallSigma0W32, rotr_eq_rotateRight, shr]

theorem smallSigma1W32_eq (x : BitVec 32) : smallSigma1W32 x = x.rotateRight 17 ^^^ x.rotateRight 19 ^^^ x >>> 10 := by
  simp [smallSigma1W32, rotr_eq_rotateRight, shr]

/-! ## The message schedule (R203) -/

theorem sha256Extend_eq_extendBy (n : Nat) (ws : List (BitVec 32)) :
    sha256Extend n ws = extendBy (sha2NextW smallSigma0W32 smallSigma1W32) n ws := by
  induction n generalizing ws with
  | zero => rfl
  | succ n ih => exact ih (sha256NextW ws :: ws)

theorem sha256Schedule_eq_extendBy (m : List (BitVec 32)) :
    sha256Schedule m = (extendBy (sha2NextW smallSigma0W32 smallSigma1W32) 48 m.reverse).reverse := by
  rw [sha256Schedule, sha256Extend_eq_extendBy]

@[simp] theorem sha256Schedule_length (m : List (BitVec 32)) : (sha256Schedule m).length = m.length + 48 := by
  simp [sha256Schedule_eq_extendBy]

/-- Settles O32: the schedule begins with the block's words, and a later word obeys the recurrence that SHA-256 shares
with SHA-512, with the sigmas of R202. -/
theorem sha256ScheduleRecurrence : Obligations.Sha256ScheduleRecurrence := by
  unfold Obligations.Sha256ScheduleRecurrence
  intro m hm
  refine ⟨by simp [hm], fun t ht => ?_, fun t ht hlast => ?_⟩
  · rw [sha256Schedule_eq_extendBy, schedule_block_word _ (hm ▸ ht)]
  · rw [sha2_schedule_next_word _ _ hm ht hlast (sha256Schedule_eq_extendBy m), smallSigma0W32_eq, smallSigma1W32_eq]

/-! ## The rounds (R204) -/

theorem k256_length : k256.length = 64 := rfl

/-- The rounds as a fold over the pairs of a constant and a schedule word. -/
theorem sha256Rounds_eq_foldl (s : Work8 32) (kws : List (BitVec 32 × BitVec 32)) :
    sha256Rounds s kws = kws.foldl (fun s kw => sha256Round s kw.1 kw.2) s := by
  induction kws generalizing s with
  | nil => rfl
  | cons kw kws ih => exact ih (sha256Round s kw.1 kw.2)

/-- Settles O33: the 64 rounds are a fold over the places of the constants and of the schedule's words, and each is
R204's with the sigmas of R202. -/
theorem sha256CompressByRounds : Obligations.Sha256CompressByRounds := by
  unfold Obligations.Sha256CompressByRounds
  intro h m _ hm
  have hlen : (sha256Schedule m).length = 64 := by simp [hm]
  rw [sha256Compress, sha256Rounds_eq_foldl, zip_eq_map_range k256_length hlen 0 0, List.foldl_map]
  simp only [sha256Init, sha256Round, sha256T1, sha256T2, bigSigma0W32_eq, bigSigma1W32_eq, ch, maj]

end Sys2Proof.Machine
end

section
/-! PROOFS. The derivation of the round constants (spec/45_compress_sha256.md R201, spec/46_compress_sha512.md R221). -/

namespace Sys2Proof.Machine

/-- The primes of R221, one for each SHA-512 constant. -/
def first80Primes : List Nat :=
  [2, 3, 5, 7, 11, 13, 17, 19, 23, 29, 31, 37, 41, 43, 47, 53, 59, 61, 67, 71, 73, 79, 83, 89, 97, 101, 103, 107, 109,
    113, 127, 131, 137, 139, 149, 151, 157, 163, 167, 173]
  ++ [179, 181, 191, 193, 197, 199, 211, 223, 227, 229, 233, 239, 241, 251, 257, 263, 269, 271, 277, 281, 283, 293,
    307, 311, 313, 317, 331, 337, 347, 349, 353, 359, 367, 373, 379, 383, 389, 397, 401, 409]

theorem first80Primes_lt : ∀ p ∈ first80Primes, p < 512 := by decide

/-- Each constant, with the integer part of its prime's cube root before it, is that root cut to 64 binary places. -/
theorem k512_cbrt_bounds : ∀ e ∈ List.zip first80Primes k512,
    (Nat.nthRoot 3 e.1 * 2 ^ 64 + e.2.toNat) ^ 3 ≤ e.1 * 2 ^ 192
      ∧ e.1 * 2 ^ 192 < (Nat.nthRoot 3 e.1 * 2 ^ 64 + e.2.toNat + 1) ^ 3 := by
  decide

theorem k512_high_half : ∀ t < 64, (k512.getD t 0).extractLsb' 32 32 = k256.getD t 0 := by decide

/-- Settles O36: `n` is the integer part of the prime's cube root, below 8 since the prime is below 512. -/
theorem roundConstantsAreCubeRoots : Obligations.RoundConstantsAreCubeRoots := by
  unfold Obligations.RoundConstantsAreCubeRoots
  refine ⟨k256_length, rfl, k512_high_half, fun e he => ⟨Nat.nthRoot 3 e.1, ?_, k512_cbrt_bounds e he⟩⟩
  exact (Nat.nthRoot_lt_iff (by decide)).2 (first80Primes_lt e.1 (List.of_mem_zip he).1)

end Sys2Proof.Machine
end

section
/-! PROOFS. The SHA-512 compression routine (spec/46_compress_sha512.md): its message schedule and its rounds, from what
it shares with SHA-256. -/

namespace Sys2Proof.Machine

/-! ## The functions (R222) -/

theorem bigSigma0W64_eq (x : BitVec 64) :
    bigSigma0W64 x = x.rotateRight 28 ^^^ x.rotateRight 34 ^^^ x.rotateRight 39 := by
  simp [bigSigma0W64, rotr_eq_rotateRight]

theorem bigSigma1W64_eq (x : BitVec 64) :
    bigSigma1W64 x = x.rotateRight 14 ^^^ x.rotateRight 18 ^^^ x.rotateRight 41 := by
  simp [bigSigma1W64, rotr_eq_rotateRight]

theorem smallSigma0W64_eq (x : BitVec 64) : smallSigma0W64 x = x.rotateRight 1 ^^^ x.rotateRight 8 ^^^ x >>> 7 := by
  simp [smallSigma0W64, rotr_eq_rotateRight, shr]

theorem smallSigma1W64_eq (x : BitVec 64) : smallSigma1W64 x = x.rotateRight 19 ^^^ x.rotateRight 61 ^^^ x >>> 6 := by
  simp [smallSigma1W64, rotr_eq_rotateRight, shr]

/-! ## The message schedule (R223) -/

theorem sha512Extend_eq_extendBy (n : Nat) (ws : List (BitVec 64)) :
    sha512Extend n ws = extendBy (sha2NextW smallSigma0W64 smallSigma1W64) n ws := by
  induction n generalizing ws with
  | zero => rfl
  | succ n ih => exact ih (sha512NextW ws :: ws)

theorem sha512Schedule_eq_extendBy (m : List (BitVec 64)) :
    sha512Schedule m = (extendBy (sha2NextW smallSigma0W64 smallSigma1W64) 64 m.reverse).reverse := by
  rw [sha512Schedule, sha512Extend_eq_extendBy]

@[simp] theorem sha512Schedule_length (m : List (BitVec 64)) : (sha512Schedule m).length = m.length + 64 := by
  simp [sha512Schedule_eq_extendBy]

/-- Settles O34: the schedule begins with the block's words, and a later word obeys the recurrence that SHA-512 shares
with SHA-256, with the sigmas of R222. -/
theorem sha512ScheduleRecurrence : Obligations.Sha512ScheduleRecurrence := by
  unfold Obligations.Sha512ScheduleRecurrence
  intro m hm
  refine ⟨by simp [hm], fun t ht => ?_, fun t ht hlast => ?_⟩
  · rw [sha512Schedule_eq_extendBy, schedule_block_word _ (hm ▸ ht)]
  · rw [sha2_schedule_next_word _ _ hm ht hlast (sha512Schedule_eq_extendBy m), smallSigma0W64_eq, smallSigma1W64_eq]

/-! ## The rounds (R224) -/

theorem k512_length : k512.length = 80 := rfl

/-- The rounds as a fold over the pairs of a constant and a schedule word. -/
theorem sha512Rounds_eq_foldl (s : Work8 64) (kws : List (BitVec 64 × BitVec 64)) :
    sha512Rounds s kws = kws.foldl (fun s kw => sha512Round s kw.1 kw.2) s := by
  induction kws generalizing s with
  | nil => rfl
  | cons kw kws ih => exact ih (sha512Round s kw.1 kw.2)

/-- Settles O35: the 80 rounds are a fold over the places of the constants and of the schedule's words, and each is
R224's with the sigmas of R222. -/
theorem sha512CompressByRounds : Obligations.Sha512CompressByRounds := by
  unfold Obligations.Sha512CompressByRounds
  intro h m _ hm
  have hlen : (sha512Schedule m).length = 80 := by simp [hm]
  rw [sha512Compress, sha512Rounds_eq_foldl, zip_eq_map_range k512_length hlen 0 0, List.foldl_map]
  simp only [sha512Init, sha512Round, sha512T1, sha512T2, bigSigma0W64_eq, bigSigma1W64_eq, ch, maj]

end Sys2Proof.Machine
end

section
/-! PROOFS. Faults (spec/60_exceptions.md): fault entry (R262), that a command which faults makes no memory access and
leaves no partial effect (R263), what a faulted instance still answers (R266), and the idle block (R273). -/

namespace Sys2Proof.Machine

open Sys2Proof.Claims

/-! ## Fault entry (R262) -/

theorem fcode_statusWord (f : FaultCode) : (statusWord f).extractLsb' 8 8 = faultCodeValue f := by cases f <;> decide

/-- R260: the table written out is that of the model's codes. -/
theorem faultCodeRows_eq :
    allFaultCodes.map (fun f => (f, faultCodeValue f))
      = [(.illegalCmd, 0x01), (.reservedVariant, 0x02), (.reservedImpl, 0x03), (.engineUnbound, 0x04),
          (.unavailableImpl, 0x05), (.busError, 0x06), (.overlap, 0x07)] := rfl

/-- Settles O12: every row of the table is a fault code with its value, which fault entry puts into STATUS. -/
theorem faultEntryWritesThreeRegisters : Obligations.FaultEntryWritesThreeRegisters := by
  unfold Obligations.FaultEntryWritesThreeRegisters
  intro s c x p hp
  rw [← faultCodeRows_eq, List.mem_map] at hp
  obtain ⟨f, -, rfl⟩ := hp
  exact ⟨rfl, State.raiseFault_faulted s c f x, fcode_statusWord f⟩

/-! ## Precise faults (R263) -/

/-- A command that writes a range of memory completes: it stores bytes and changes nothing else. -/
theorem exec_of_memWrites {i : Instr} {s : State} (h : memWrites i s ≠ []) :
    ∃ bs, exec i s = .next (s.memWrite s.blk.stateAddr.toNat bs) := by
  cases i with
  | ldiv var =>
    cases hv : variantOfCode? var with
    | none => simp [memWrites, hv] at h
    | some v =>
      have hadmit : s.admits s.blk.stateAddr (stateLen v) = true := by simpa [memWrites, hv] using h
      rw [← variantCode_of_some hv, exec_ldiv_variantCode, loadIv_admitted hadmit]
      exact ⟨_, rfl⟩
  | compress =>
    cases hcheck : compressCheck s with
    | run f => exact ⟨_, exec_compress_run hcheck⟩
    | raise code x | stuck => simp [memWrites, hcheck] at h
  | qblk | qstl | qdgl | qpdl | fast | fastrt | avail | engnew | engref => exact absurd rfl h

/-- Only COMPRESS reads memory, and a COMPRESS that does also writes. -/
theorem memReads_eq_nil {i : Instr} {s : State} (h : memWrites i s = []) : memReads i s = [] := by
  cases i with
  | compress =>
    cases hcheck : compressCheck s with
    | run f => simp [memWrites, hcheck] at h
    | raise code x | stuck => simp only [memReads, hcheck]
  | qblk | qstl | qdgl | qpdl | ldiv | fast | fastrt | avail | engnew | engref => rfl

theorem memWrites_eq_nil_of_faulted {i : Instr} {s t : State} (hs : s.blk.faulted = false) (h : exec i s = .next t)
    (ht : t.blk.faulted = true) : memWrites i s = [] := by
  by_contra hwrites
  obtain ⟨bs, hbs⟩ := exec_of_memWrites hwrites
  rw [hbs] at h
  cases h
  exact Bool.false_ne_true (hs.symm.trans ht)

/-- Settles O13: of the five kinds of answer of `exec_cases` only fault entry leaves an unfaulted instance faulted, and
a command that makes a memory access stores and completes. -/
theorem faultingCommandLeavesNoPartialEffect : Obligations.FaultingCommandLeavesNoPartialEffect := by
  unfold Obligations.FaultingCommandLeavesNoPartialEffect
  intro i s t hs h ht
  have hwrites := memWrites_eq_nil_of_faulted hs h ht
  refine ⟨?_, memReads_eq_nil hwrites, hwrites⟩
  rcases exec_cases h with ⟨f, x, -, rfl⟩ | ⟨-, r, -, rfl⟩ | ⟨-, v, rfl⟩ | ⟨-, v, rfl⟩ | ⟨-, bs, -, -, -, rfl⟩
  · rfl
  all_goals exact absurd (hs.symm.trans ht) Bool.false_ne_true

/-! ## The faulted instance (R266) -/

/-- Settles O6: CMD runs the word, which a faulted instance discards, the address halves are replaced by the write of
their register, and reads are those of any instance (O41). -/
theorem faultedInstanceDiscardsCommands : Obligations.FaultedInstanceDiscardsCommands := by
  unfold Obligations.FaultedInstanceDiscardsCommands
  intro s t a rest hf
  exact ⟨fun c hh h => (step_write hh h rfl).trans (runCommand_faulted hf c),
    fun v hh h => step_write hh h rfl, fun v hh h => step_write hh h rfl,
    fun v hh h => step_write hh h rfl, fun v hh h => step_write hh h rfl,
    fun p hp hh h => hostReadReturnsTheRegister s t a rest hh p hp h⟩

/-! ## The idle block (R273, R291) -/

/-- Settles O9: a step with no input answers the state it was given. -/
theorem idleBlockKeepsItsState : Obligations.IdleBlockKeepsItsState := by
  unfold Obligations.IdleBlockKeepsItsState
  intro s hh
  rw [step, hh]

end Sys2Proof.Machine
end

section
/-! PROOFS. Reset (spec/70_reset_and_hazards.md): the state after it (R290), reset between commands (R290, R271), and
reset during a command (R292, U10). -/

namespace Sys2Proof.Machine

open Sys2Proof.Claims

/-! ## The state after reset (R290) -/

/-- Settles O11: a reset instance has legal registers whatever its base, and memory is empty. -/
theorem resetStateIsLegal : Obligations.ResetStateIsLegal := by
  unfold Obligations.ResetStateIsLegal
  exact ⟨⟨reset_mem_wf, Block.atReset_legal 0, List.forall_mem_nil _⟩,
    fun base _ _ => ⟨reset_mem_wf, Block.atReset_legal base, List.forall_mem_nil _⟩⟩

/-! ## Reset between commands -/

/-- Taking an input and selecting the instance it names leaves memory. -/
theorem select_mem {s t : State} {a : Addr} {rest : List HostEvent} (h : { s with host := rest }.select a = some t) :
    t.mem = s.mem := by
  rw [(select_some h).2.2]

theorem step_reset {s t : State} {a : Addr} {rest : List HostEvent} (hh : s.host = .reset a :: rest)
    (hsel : { s with host := rest }.select a = some t) : step s = .next t.resetBlk := by
  rw [step_cons hh, hostEvent, resetEvent, hsel]

@[simp] theorem Block.atReset_bound (b : Addr) : (Block.atReset b).bound = false := by simp [Block.bound]

/-- Settles O43: the selected instance takes its reset registers, and an unbound ENG is the first thing COMPRESS
checks. -/
theorem resetClearsEveryRegister : Obligations.ResetClearsEveryRegister := by
  unfold Obligations.ResetClearsEveryRegister
  refine ⟨fun s t a rest hh hsel => ?_, rfl⟩
  have hmem : t.mem = s.mem := select_mem hsel
  have hbound : t.resetBlk.blk.bound = false := Block.atReset_bound _
  exact ⟨t.resetBlk, step_reset hh hsel, rfl, Block.atReset_faulted _, hbound, rfl, hmem,
    exec_compress_raise (compressCheck_unbound hbound)⟩

/-! ## Reset during a command (R292) -/

theorem step_resetDuring {s t : State} {a : Addr} {c : Word} {rest : List HostEvent}
    (hh : s.host = .resetDuring a c :: rest) (hsel : { s with host := rest }.select a = some t) :
    step s = .next ((wordWrites c t).foldl State.drawSpan t).resetBlk := by
  rw [step_cons hh, hostEvent, abandonedCommand, hsel]

theorem wordWrites_decoded {c : Word} {s : State} {i : Instr} (hdec : decode c = .ok i)
    (hf : s.blk.faulted = false) : wordWrites c s = memWrites i s := by
  simp [wordWrites, commandOf, hdec, hf]

/-- A word that runs no command writes nothing (R266, R86). -/
theorem wordWrites_no_command {c : Word} {s : State} (h : s.blk.faulted = true ∨ ∃ e, decode c = .error e) :
    wordWrites c s = [] := by
  rcases h with hf | ⟨e, he⟩
  · simp [wordWrites, commandOf, hf]
  · simp [wordWrites, commandOf, he]

/-- Settles O44: the draws reach no byte outside the ranges of the command and no register, and reset then clears the
registers. -/
theorem resetDuringCommandKeepsOtherMemory : Obligations.ResetDuringCommandKeepsOtherMemory := by
  unfold Obligations.ResetDuringCommandKeepsOtherMemory
  intro s t a c rest hh hsel
  have hmem : t.mem = s.mem := select_mem hsel
  have hdrawn := changesOutside_drawWrites c t t
  refine ⟨_, step_resetDuring hh hsel, ?_, hdrawn.keepsAround.others, fun i hdec hf x hx => ?_, fun hnone => ?_⟩
  · rw [State.resetBlk_blk, hdrawn.blk_eq]
  · rw [State.resetBlk_mem, ← hmem]
    exact drawSpans_outside ((wordWrites_decoded hdec hf).symm ▸ hx) t
  · rw [wordWrites_no_command hnone]
    exact hmem

end Sys2Proof.Machine
end

section
/-! PROOFS. Padding and digest (spec/47_host_boundary.md): the padded message and its blocks (R241), and the digest, which
does not depend on the byte order of the state region (R243). -/

namespace Sys2Proof.Machine

/-! ## The padding (R241) -/

/-- The zeros fill the last block, and fewer than a block of them are needed. -/
theorem padZeros_fill (v : Variant) (n : Nat) :
    padZeros v n < blockLen v ∧ (n + 1 + padZeros v n + padLen v) % blockLen v = 0 := by
  unfold padZeros
  rcases blockLen_padLen_cases v with ⟨-, hblock, hpad⟩ | ⟨-, hblock, hpad⟩ <;> rw [hblock, hpad] <;> omega

/-- Two counts of zeros that both fill the last block differ by whole blocks. -/
theorem padZeros_least {v : Variant} {n z : Nat} (hz : z < padZeros v n) :
    (n + 1 + z + padLen v) % blockLen v ≠ 0 := by
  obtain ⟨hlt, hfill⟩ := padZeros_fill v n
  rcases blockLen_padLen_cases v with ⟨-, hblock, hpad⟩ | ⟨-, hblock, hpad⟩ <;>
    rw [hblock] at hlt hfill ⊢ <;> omega

theorem pad_length (v : Variant) (msg : List Byte) :
    (pad v msg).length = msg.length + 1 + padZeros v msg.length + padLen v := by
  simp only [pad, List.length_append, List.length_cons, List.length_replicate, bytesBE_length]
  omega

/-- `m * block_len(v)` for the ceiling `m`. -/
theorem pad_length_ceil (v : Variant) (msg : List Byte) :
    (pad v msg).length = (msg.length + 1 + padLen v + (blockLen v - 1)) / blockLen v * blockLen v := by
  obtain ⟨hlt, hfill⟩ := padZeros_fill v msg.length
  rw [pad_length]
  rcases blockLen_padLen_cases v with ⟨-, hblock, hpad⟩ | ⟨-, hblock, hpad⟩ <;>
    rw [hblock] at hlt hfill ⊢ <;> omega

/-! ## The blocks -/

theorem blockLen_pos (v : Variant) : 0 < blockLen v := by cases v <;> decide

theorem blocksOf_nil (v : Variant) : blocksOf v [] = [] := by simp [blocksOf]

/-- The first block of a message is its first `block_len(v)` bytes, the others are those of the rest. -/
theorem blocksOf_append {v : Variant} {b : List Byte} (hb : b.length = blockLen v) (bs : List Byte) :
    blocksOf v (b ++ bs) = b :: blocksOf v bs := by
  have hcount : (b ++ bs).length / blockLen v = bs.length / blockLen v + 1 := by
    rw [List.length_append, hb, Nat.add_div_left _ (blockLen_pos v)]
  have hnext (j : Nat) : (b ++ bs).drop ((j + 1) * blockLen v) = bs.drop (j * blockLen v) := by
    rw [Nat.succ_mul, Nat.add_comm, ← hb, List.drop_length_add_append]
  rw [blocksOf, hcount, List.range_succ_eq_map, List.map_cons, List.map_map, Nat.zero_mul, List.drop_zero,
    List.take_left' hb]
  exact congrArg (b :: ·) (List.map_congr_left fun j _ => congrArg (List.take _) (hnext j))

/-- The blocks of a message of whole blocks are the message. -/
theorem flatten_blocksOf {v : Variant} {m : Nat} {bs : List Byte} (hlen : bs.length = m * blockLen v) :
    (blocksOf v bs).flatten = bs := by
  induction m generalizing bs with
  | zero =>
    rw [Nat.zero_mul] at hlen
    rw [List.eq_nil_of_length_eq_zero hlen, blocksOf_nil, List.flatten_nil]
  | succ m ih =>
    rw [Nat.succ_mul] at hlen
    have hfirst : (bs.take (blockLen v)).length = blockLen v := List.length_take_of_le (by omega)
    have hrest : (bs.drop (blockLen v)).length = m * blockLen v := by rw [List.length_drop]; omega
    calc (blocksOf v bs).flatten
        = (blocksOf v (bs.take (blockLen v) ++ bs.drop (blockLen v))).flatten := by rw [List.take_append_drop]
      _ = bs.take (blockLen v) ++ bs.drop (blockLen v) := by rw [blocksOf_append hfirst, List.flatten_cons, ih hrest]
      _ = bs := List.take_append_drop _ _

theorem length_of_mem_blocksOf {v : Variant} {bs b : List Byte} (h : b ∈ blocksOf v bs) : b.length = blockLen v := by
  obtain ⟨j, hj, rfl⟩ := List.mem_map.1 h
  have hend : (j + 1) * blockLen v ≤ bs.length := Nat.mul_le_of_le_div _ _ _ (List.mem_range.1 hj)
  rw [Nat.succ_mul] at hend
  exact List.length_take_of_le (by rw [List.length_drop]; omega)

/-- Settles O47: the zeros of the model are the least that fill the last block, so the padded message is whole
blocks. -/
theorem paddedMessage : Obligations.PaddedMessage := by
  unfold Obligations.PaddedMessage
  intro v msg
  exact ⟨padZeros v msg.length, by simp [pad], (padZeros_fill v msg.length).2, fun _ hz => padZeros_least hz,
    pad_length_ceil v msg, flatten_blocksOf (pad_length_ceil v msg), fun _ hb => length_of_mem_blocksOf hb⟩

/-! ## The digest (R243) -/

/-- Words are whole bytes, and not empty. -/
theorem familyWordBits_bytes (f : Family) : 8 ∣ familyWordBits f ∧ 0 < familyWordBits f / 8 := by cases f <;> decide

/-- Settles O48: the words read from the region are those it was written from, in either order. -/
theorem digestIsOrderIndependent : Obligations.DigestIsOrderIndependent := by
  unfold Obligations.DigestIsOrderIndependent
  intro v o hs hlen
  obtain ⟨hbits, hbytes⟩ := familyWordBits_bytes (familyOf v)
  have hcount : stateLen v / (familyWordBits (familyOf v) / 8) = hs.length := by
    rw [← hlen, Nat.mul_div_cancel _ hbytes]
  have hdigest : digestOf o v (regionBytes o hs) = (regionBytes .BE hs).take (digestLen v) := by
    rw [digestOf, hcount, wordsOf_regionBytes o hbits]
  refine ⟨hdigest, ?_⟩
  rw [hdigest, List.length_take, regionBytes_length, hlen, Nat.min_eq_left (digestLen_le_stateLen v)]

end Sys2Proof.Machine
end

section
/-! PROOFS. The session (spec/47_host_boundary.md R242): the steps of its accesses (R90), what holds of the machine between
the passes of its loop, one pass, and the loop by induction on the blocks. -/

namespace Sys2Proof.Machine

/-! ## The session's accesses as steps (R90) -/

/-- The two halves of an address are the address. -/
theorem highHalf_append_lowHalf (x : Addr) : highHalf x ++ lowHalf x = x := by
  rw [highHalf, lowHalf, BitVec.extractLsb'_append_extractLsb'_eq_extractLsb' (show 32 = 0 + 32 from rfl)]
  exact BitVec.extractLsb'_eq_self

theorem runSteps_setStateEvents {s : State} {a : Addr} {rest : List HostEvent} (hbase : s.blk.base.toNat % 64 = 0)
    (hh : s.host = setStateEvents s.blk.base a ++ rest) :
    runSteps 2 s = .next ({ s with host := rest }.setStateAddr a) := by
  have hwrites := (addressHalvesInEitherOrder s (lowHalf a) (highHalf a) rest hbase).1 _ List.mem_cons_self hh
  rwa [highHalf_append_lowHalf] at hwrites

theorem runSteps_setBlockEvents {s : State} {a : Addr} {rest : List HostEvent} (hbase : s.blk.base.toNat % 64 = 0)
    (hh : s.host = setBlockEvents s.blk.base a ++ rest) :
    runSteps 2 s = .next ({ s with host := rest }.setBlockAddr a) := by
  have hwrites := (addressHalvesInEitherOrder s (lowHalf a) (highHalf a) rest hbase).2 _ List.mem_cons_self hh
  rwa [highHalf_append_lowHalf] at hwrites

/-- A command in its assembler form runs on the unfaulted instance that it is written to. -/
theorem step_cmd {s t : State} {i : Instr} {rest : List HostEvent} (hbase : s.blk.base.toNat % 64 = 0)
    (hf : s.blk.faulted = false) (hh : s.host = cmd s.blk.base i :: rest)
    (hexec : exec i { s with host := rest } = .next t) : step s = .next t :=
  (step_write_own hbase hh rfl).trans
    ((runCommand_decoded (s := { s with host := rest }) hf (decode_encode i)).trans hexec)

/-- The steps that take all but some of the inputs are the first of those that take all. -/
theorem runSteps_host {k : Nat} {s u : State} (h : runSteps k s = .next u) (hk : s.host.length = k + u.host.length) :
    runSteps s.host.length s = runSteps u.host.length u := by
  rw [hk, runSteps_add h]

/-! ## Admission during a session -/

/-- Admission of a region looks only at the windows and at the platform (R51, R52). -/
theorem KeepsAround.admits_eq {s t : State} (h : KeepsAround s t) (a : Addr) (n : Nat) :
    t.admits a n = s.admits a n := by
  simp only [State.admits, State.memAdmit, State.inWindow, Block.decodes, h.base, h.others, h.admitted]

/-- The host may store to an admitted region: it touches no window (R51). -/
theorem inWindow_of_admits {s : State} {a : Addr} {n k : Nat} (h : s.admits a n = true) (hk : k < n) :
    s.inWindow (a.toNat + k) = false :=
  memAdmit_not_inWindow (((admit_iff s a n).1 h).2 k hk)

/-- A block region of variant `v` that a session with its state region at `st` can use. -/
def blockFits (s : State) (v : Variant) (st b : Addr) : Prop :=
  s.admits b (blockLen v) = true
    ∧ (b.toNat + blockLen v ≤ st.toNat ∨ st.toNat + stateLen v ≤ b.toNat)

theorem KeepsAround.blockFits {s t : State} (h : KeepsAround s t) {v : Variant} {st b : Addr}
    (hfits : blockFits s v st b) : blockFits t v st b :=
  ⟨(h.admits_eq b _).trans hfits.1, hfits.2⟩

/-! ## Between the passes of the loop -/

/-- The machine after LDIV and the binding, and after every pass of the loop: unfaulted, bound to the family of `v`, its
state region at `st` and admitted. -/
structure InSession (s : State) (v : Variant) (st : Addr) : Prop where
  wf : s.mem.wf = true
  unfaulted : s.blk.faulted = false
  aligned : s.blk.base.toNat % 64 = 0
  stateAddr : s.blk.stateAddr = st
  eng : s.blk.eng = engWord implGeneric (familyOf v)
  admits : s.admits st (stateLen v) = true

/-- COMPRESS passes every check once BLOCK_ADDR names a block region that fits (R164). -/
theorem InSession.compressCheck_eq_run {s : State} {v : Variant} {st : Addr} (h : InSession s v st)
    (hfits : blockFits s v st s.blk.blockAddr) : compressCheck s = .run (familyOf v) := by
  obtain ⟨hblock, hdisjoint⟩ := hfits
  rw [compressCheck_run_iff, spansOverlap_false_iff, State.stateSpan, State.blockSpan, familyStateLen_familyOf,
    familyBlockLen_familyOf, h.stateAddr, Block.bound, Block.engImpl, Block.engFamily, h.eng, bound_engWord,
    impl_engWord, family_engWord]
  exact ⟨rfl, rfl, familyOfCode_familyCode _, h.admits, hblock, hdisjoint⟩

/-- One COMPRESS of a session takes the state region through the bound routine (R166). -/
theorem InSession.exec_compress {s : State} {v : Variant} {st : Addr} (h : InSession s v st)
    (hfits : blockFits s v st s.blk.blockAddr) :
    ∃ t, exec .compress s = .next t ∧ InSession t v st ∧ KeepsAround s t
      ∧ readBytes t.mem st.toNat (stateLen v) = routineBytes s.stateOrder (familyOf v)
          (readBytes s.mem st.toNat (stateLen v)) (readBytes s.mem s.blk.blockAddr.toNat (blockLen v)) := by
  have hexec := exec_compress_run (h.compressCheck_eq_run hfits)
  have hkeeps := exec_keepsAround hexec
  have hfamily : s.blk.engFamily = familyCode (familyOf v) := by rw [Block.engFamily, h.eng, family_engWord]
  have hread := readBytes_of_compress h.wf hfamily hexec h.unfaulted
  rw [familyStateLen_familyOf, familyBlockLen_familyOf, h.stateAddr] at hread
  refine ⟨_, hexec, ⟨wf_writeBytes _ ?_ h.wf, h.unfaulted, h.aligned, h.stateAddr, h.eng, ?_⟩, hkeeps, ?_⟩
  · rw [h.stateAddr, compressBytes_length, familyStateLen_familyOf]
    exact admit_le h.admits
  · exact (hkeeps.admits_eq st _).trans h.admits
  · rw [h.stateAddr]
    exact hread

/-! ## One pass -/

/-- The machine of a session when block `b` of the message stands in host memory and BLOCK_ADDR names it. -/
def State.placeBlock (s : State) (b : Addr) (block : List Byte) : State :=
  (s.memWrite b.toNat block).setBlockAddr b

/-- R242: a pass stores its block and names it, and COMPRESS is then next. -/
theorem runSteps_placeBlock {s : State} {b : Addr} {block : List Byte} {rest : List HostEvent}
    (hbase : s.blk.base.toNat % 64 = 0) (hadmit : s.admits b block.length = true)
    (hh : s.host = blockEvents s.blk.base b block ++ rest) :
    runSteps 3 s = .next ({ s with host := cmd s.blk.base .compress :: rest }.placeBlock b block) := by
  have hstore := step_store hh (admit_le hadmit) fun k hk => inWindow_of_admits hadmit hk
  exact (runSteps_succ hstore).trans (runSteps_setBlockEvents hbase (List.append_assoc _ _ _))

/-- The store leaves the state region alone (the regions are disjoint), and the block reads back (R62, R66). -/
theorem InSession.placeBlock {s : State} {v : Variant} {st b : Addr} {block : List Byte} (h : InSession s v st)
    (hfits : blockFits s v st b) (hlen : block.length = blockLen v) :
    InSession (s.placeBlock b block) v st
      ∧ readBytes (s.placeBlock b block).mem st.toNat (stateLen v) = readBytes s.mem st.toNat (stateLen v)
      ∧ readBytes (s.placeBlock b block).mem b.toNat (blockLen v) = block := by
  obtain ⟨hblock, hdisjoint⟩ := hfits
  have hle : b.toNat + block.length ≤ addrSpace := hlen ▸ admit_le hblock
  refine ⟨⟨wf_writeBytes block hle h.wf, h.unfaulted, h.aligned, h.stateAddr, h.eng, h.admits⟩, ?_, ?_⟩
  · exact readBytes_congr fun k hk => readByte_writeBytes_outside block (by omega)
  · rw [← hlen]
    exact readBytes_writeBytes block hle h.wf

theorem InSession.withHost {s : State} {v : Variant} {st : Addr} (h : InSession s v st) (host : List HostEvent) :
    InSession { s with host := host } v st := ⟨h.wf, h.unfaulted, h.aligned, h.stateAddr, h.eng, h.admits⟩

/-- R166, R242: a pass takes the state region through the routine with its block. -/
theorem InSession.runSteps_blockEvents {s : State} {v : Variant} {st b : Addr} {block : List Byte}
    {rest : List HostEvent} (h : InSession s v st) (hfits : blockFits s v st b) (hlen : block.length = blockLen v)
    (hh : s.host = blockEvents s.blk.base b block ++ rest) :
    ∃ t, runSteps 4 s = .next t ∧ InSession t v st ∧ KeepsAround { s with host := rest } t
      ∧ readBytes t.mem st.toNat (stateLen v)
          = routineBytes s.stateOrder (familyOf v) (readBytes s.mem st.toNat (stateLen v)) block := by
  obtain ⟨hplaced, hstate, hblock⟩ := (h.withHost rest).placeBlock hfits hlen
  obtain ⟨t, hexec, ht, hkeeps, hread⟩ := hplaced.exec_compress hfits
  have hplace := runSteps_placeBlock h.aligned (hlen.symm ▸ hfits.1) hh
  have hcmd : step ({ s with host := cmd s.blk.base .compress :: rest }.placeBlock b block) = .next t :=
    step_cmd h.aligned h.unfaulted rfl hexec
  refine ⟨t, (runSteps_add (k := 1) hplace).trans (runSteps_succ hcmd), ht,
    ⟨hkeeps.base, hkeeps.others, hkeeps.admitted, hkeeps.stateOrder, hkeeps.host⟩, ?_⟩
  calc readBytes t.mem st.toNat (stateLen v)
      = routineBytes s.stateOrder (familyOf v) _ _ := hread
    _ = _ := congrArg₂ _ hstate hblock

/-! ## The loop -/

/-- R242, R166: the loop puts the state region through the routine once for each block, in order. -/
theorem InSession.runSteps_loopEvents {s : State} {v : Variant} {st : Addr} {blockAt : Nat → Addr} {j : Nat}
    {blocks : List (List Byte)} (h : InSession s v st) (hlen : ∀ b ∈ blocks, b.length = blockLen v)
    (hfits : ∀ i < blocks.length, blockFits s v st (blockAt (j + i)))
    (hh : s.host = loopEvents s.blk.base blockAt j blocks) :
    ∃ t, runSteps s.host.length s = .next t ∧ InSession t v st ∧ t.host = []
      ∧ readBytes t.mem st.toNat (stateLen v)
          = blocks.foldl (routineBytes s.stateOrder (familyOf v)) (readBytes s.mem st.toNat (stateLen v)) := by
  induction blocks generalizing s j with
  | nil =>
    rw [hh]
    exact ⟨s, rfl, h, hh, rfl⟩
  | cons b blocks ih =>
    rw [List.forall_mem_cons] at hlen
    obtain ⟨u, hpass, hu, hkeeps, hread⟩ :=
      h.runSteps_blockEvents (hfits 0 (Nat.succ_pos _)) hlen.1 hh
    have hnext (i : Nat) (hi : i < blocks.length) : blockFits u v st (blockAt (j + 1 + i)) := by
      rw [Nat.add_assoc, Nat.add_comm 1]
      exact hkeeps.blockFits (hfits (i + 1) (Nat.succ_lt_succ hi))
    obtain ⟨t, hloop, ht, hdone, hfold⟩ := ih hu hlen.2 hnext (hkeeps.base ▸ hkeeps.host)
    refine ⟨t, ?_, ht, hdone, ?_⟩
    · rw [runSteps_host hpass (by rw [hh, hkeeps.host]; exact List.length_append), hloop]
    · rw [hfold, hread, hkeeps.stateOrder, List.foldl_cons]

/-! ## The whole session -/

/-- R242: STATE_ADDR is set, LDIV stores the initial state there and ENGREF binds. -/
theorem runSteps_sessionStart {s : State} {v : Variant} {st : Addr} {rest : List HostEvent} (hwf : s.mem.wf = true)
    (hf : s.blk.faulted = false) (hbase : s.blk.base.toNat % 64 = 0) (hadmit : s.admits st (stateLen v) = true)
    (hh : s.host = setStateEvents s.blk.base st ++ [cmd s.blk.base (.ldiv (variantCode v)), bindEvent s.blk.base v]
      ++ rest) :
    ∃ t, runSteps 4 s = .next t ∧ InSession t v st ∧ KeepsAround { s with host := rest } t
      ∧ readBytes t.mem st.toNat (stateLen v) = ivBytes s.stateOrder v := by
  have hset := runSteps_setStateEvents hbase (hh.trans (List.append_assoc _ _ _))
  have hwf' : Memory.wf (writeBytes s.mem st.toNat (ivBytes s.stateOrder v)) = true :=
    wf_writeBytes _ ((ivBytes_length s.stateOrder v).symm ▸ admit_le hadmit) hwf
  have hload : step ({ s with host := cmd s.blk.base (.ldiv (variantCode v)) :: bindEvent s.blk.base v :: rest
      }.setStateAddr st) = .next (({ s with host := bindEvent s.blk.base v :: rest }.setStateAddr st).memWrite st.toNat
        (ivBytes s.stateOrder v)) :=
    step_cmd hbase hf rfl ((exec_ldiv_variantCode v _).trans (loadIv_admitted hadmit _))
  have hbind : step (({ s with host := bindEvent s.blk.base v :: rest }.setStateAddr st).memWrite st.toNat
      (ivBytes s.stateOrder v)) = .next _ :=
    step_cmd hbase hf rfl (exec_engref_variantCode v _)
  refine ⟨_, (runSteps_add (k := 2) hset).trans ((runSteps_succ hload).trans (runSteps_succ hbind)),
    ⟨hwf', hf, hbase, rfl, rfl, hadmit⟩, ⟨rfl, rfl, rfl, rfl, rfl⟩,
    readBytes_writeBytes_ivBytes (s := s.setStateAddr st) hwf hadmit s.stateOrder⟩

/-- Settles O49: the loop takes the initial state that LDIV stored through the routine for each block of the padded
message. -/
theorem sessionLeavesTheHashInTheStateRegion : Obligations.SessionLeavesTheHashInTheStateRegion := by
  unfold Obligations.SessionLeavesTheHashInTheStateRegion
  intro s v msg st blockAt hwf hf hbase hadmit hblocks hh
  obtain ⟨u, hstart, hu, hkeeps, hiv⟩ := runSteps_sessionStart hwf hf hbase hadmit hh
  obtain ⟨t, hloop, ht, hdone, hfold⟩ := hu.runSteps_loopEvents (fun _ hb => length_of_mem_blocksOf hb)
    (fun i hi => hkeeps.blockFits ((Nat.zero_add i).symm ▸ hblocks i hi)) (hkeeps.base ▸ hkeeps.host)
  refine ⟨t, ?_, ht.unfaulted, hdone, ?_, ht.eng⟩
  · rw [runSteps_host hstart (by rw [hh, hkeeps.host]; exact List.length_append), hloop]
  · rw [hfold, hiv, hkeeps.stateOrder, hashRegion]

end Sys2Proof.Machine
end
